-- ==== Sys2Proof/Word.lean ====
section
/-! DEFINITION. The two bit-vector widths of the block: a byte (`00_scope.md` rules R10, R11) and a command
word (`30_encoding.md` rule R80). -/

namespace Sys2Proof

/-- A byte: an operand, a channel value, a table entry (R10). -/
abbrev Byte := BitVec 8

/-- A 32-bit command word `CW` (R80). -/
abbrev CW := BitVec 32

end Sys2Proof
end

