-- ==== Sys2Proof/Syntax.lean ====
section
/-! DEFINITION. The ten commands of `30_encoding.md` rule R82, one constructor per row of
`spec/opcode_table.json`, operands in the source's argument order (R86). The operand types have the widths of
`00_scope.md` rule R10 and `30_encoding.md` rule R81, so a term of `Instr` always fits its fields. -/

namespace Sys2Proof

/-- A decoded command (R82). -/
inductive Instr where
  /-- `SENDBIT v`: one bit cell (R100). -/
  | sendbit (v : Bool)
  /-- `SENDBYTE value`: eight bit cells, most-significant first (R102). -/
  | sendbyte (value : Byte)
  /-- `WRCOLOR r, g, b`: three raw channel bytes (R120). -/
  | wrcolor (r g b : Byte)
  /-- `WRHUE hue`: one pixel at full scale (R124). -/
  | wrhue (hue : Byte)
  /-- `WRHUEBR hue, bri`: one pixel, scaled and gamma corrected (R127). -/
  | wrhuebr (hue bri : Byte)
  /-- `LATCH`: the latch gap (R104). -/
  | latch
  /-- `IHOLD`: begin the hold (R150). -/
  | ihold
  /-- `IREL`: end the hold (R151). -/
  | irel
  /-- `FRAMER pos, hue`: the reactive frame (R154). -/
  | framer (pos : BitVec 4) (hue : Byte)
  /-- `FRAMEA`: the ambient frame (R155). -/
  | framea
deriving DecidableEq, Repr

end Sys2Proof
end

