-- ==== Sys2Proof/WellFormed.lean ====
section
/-! DEFINITION. Which command words are well formed: the match and mask columns of `30_encoding.md` rule R82. The
operands of an `Instr` are well formed by their types (R10, R81); what can be ill formed is a WORD, by its `op` or by
a nonzero must-be-zero bit (R85). The decoder of `Decode.lean` is written from the field columns of the same rule and
not from this table. -/

namespace Sys2Proof

/-- One row of R82: a word is the row's command exactly when `w &&& mask = pattern`. -/
structure CommandRow where
  pattern : CW
  mask : CW
deriving DecidableEq, Repr

/-- The ten rows of R82, in its order. -/
def commandRows : List CommandRow :=
  [ ⟨0x01000000#32, 0xFFFFFFFE#32⟩,   -- SENDBIT
    ⟨0x02000000#32, 0xFFFFFF00#32⟩,   -- SENDBYTE
    ⟨0x03000000#32, 0xFF000000#32⟩,   -- WRCOLOR
    ⟨0x04000000#32, 0xFFFF00FF#32⟩,   -- WRHUE
    ⟨0x05000000#32, 0xFFFF0000#32⟩,   -- WRHUEBR
    ⟨0x06000000#32, 0xFFFFFFFF#32⟩,   -- LATCH
    ⟨0x07000000#32, 0xFFFFFFFF#32⟩,   -- IHOLD
    ⟨0x08000000#32, 0xFFFFFFFF#32⟩,   -- IREL
    ⟨0x10000000#32, 0xFFFF00F0#32⟩,   -- FRAMER
    ⟨0x11000000#32, 0xFFFFFFFF#32⟩ ]  -- FRAMEA

/-- The word matches the row (R82). -/
def CommandRow.matchesWord (r : CommandRow) (w : CW) : Bool := w &&& r.mask == r.pattern

/-- The word is some command's; every other word is reserved (R85). -/
def wordWellFormed (w : CW) : Bool := commandRows.any fun r => r.matchesWord w

end Sys2Proof
end

