-- ==== Sys2Proof/Decode.lean ====
section
/-! DEFINITION. Decoding (`30_encoding.md` rules R80, R81, R83, R85), total on every word and on every list of
bytes, rejecting by name; and the encoder, from the same rule's field columns. -/

namespace Sys2Proof

/-- Why a word or a list of bytes is no command. -/
inductive DecodeError where
  /-- `op` is none of the ten values (R85). -/
  | unknownOp (op : Byte)
  /-- a must-be-zero bit of the row of `op` is one (R83, R85). -/
  | mustBeZero (op : Byte)
  /-- fewer than four bytes are left (R80: every command is four bytes). -/
  | tooShort
deriving DecidableEq, Repr

/-- `op = CW[31:24]` (R80). -/
def fieldOp (w : CW) : Byte := w.extractLsb' 24 8
/-- `a = CW[23:16]` (R80). -/
def fieldA (w : CW) : Byte := w.extractLsb' 16 8
/-- `b = CW[15:8]` (R80). -/
def fieldB (w : CW) : Byte := w.extractLsb' 8 8
/-- `c = CW[7:0]` (R80). -/
def fieldC (w : CW) : Byte := w.extractLsb' 0 8

/-- The command, if the row's must-be-zero bits are zero (R83). -/
def whenZero (op : Byte) (zero : Bool) (i : Instr) : Except DecodeError Instr :=
  if zero then .ok i else .error (.mustBeZero op)

/-- Decode one command word (R82, R83, R85). It reads no state. -/
def decode (w : CW) : Except DecodeError Instr :=
  let op := fieldOp w
  let a := fieldA w
  let b := fieldB w
  let c := fieldC w
  match op with
  | 0x01#8 => whenZero op (a == 0 && b == 0 && c.extractLsb' 1 7 == 0) (.sendbit (c.getLsbD 0))
  | 0x02#8 => whenZero op (a == 0 && b == 0) (.sendbyte c)
  | 0x03#8 => .ok (.wrcolor a b c)
  | 0x04#8 => whenZero op (a == 0 && c == 0) (.wrhue b)
  | 0x05#8 => whenZero op (a == 0) (.wrhuebr b c)
  | 0x06#8 => whenZero op (a == 0 && b == 0 && c == 0) .latch
  | 0x07#8 => whenZero op (a == 0 && b == 0 && c == 0) .ihold
  | 0x08#8 => whenZero op (a == 0 && b == 0 && c == 0) .irel
  | 0x10#8 => whenZero op (a == 0 && c.extractLsb' 4 4 == 0) (.framer (c.extractLsb' 0 4) b)
  | 0x11#8 => whenZero op (a == 0 && b == 0 && c == 0) .framea
  | _ => .error (.unknownOp op)

/-- The word whose four bytes are `op`, `a`, `b`, `c`, `op` the most significant (R80). -/
def wordOf (op a b c : Byte) : CW := op ++ a ++ b ++ c

/-- The command word of a command (R82). -/
def encode : Instr → CW
  | .sendbit v => wordOf 0x01#8 0 0 (0#7 ++ BitVec.ofBool v)
  | .sendbyte value => wordOf 0x02#8 0 0 value
  | .wrcolor r g b => wordOf 0x03#8 r g b
  | .wrhue hue => wordOf 0x04#8 0 hue 0
  | .wrhuebr hue bri => wordOf 0x05#8 0 hue bri
  | .latch => wordOf 0x06#8 0 0 0
  | .ihold => wordOf 0x07#8 0 0 0
  | .irel => wordOf 0x08#8 0 0 0
  | .framer pos hue => wordOf 0x10#8 0 hue (0#4 ++ pos)
  | .framea => wordOf 0x11#8 0 0 0

/-- A stored command word: four bytes, the byte holding `op` first (R80, D25). -/
def wordBytes (w : CW) : List Byte := [fieldOp w, fieldA w, fieldB w, fieldC w]

/-- Decode the command at the head of a list of stored bytes; the rest of the list comes with it (R80). -/
def decodeBytes : List Byte → Except DecodeError (Instr × List Byte)
  | op :: a :: b :: c :: rest =>
    match decode (wordOf op a b c) with
    | .ok i => .ok (i, rest)
    | .error e => .error e
  | _ => .error .tooShort

/-- The instruction the decoder reads from the opcode table's numbering of the word: a command is ONE 32-bit word,
so bit `k` of `w` is bit `k` of `CW`, and bits above `nbits` are zero. It is laid out as R80 stores it and given
to `decodeBytes`. Log 19. -/
def decodeTableWord (nbits w : Nat) : Option Instr :=
  match decodeBytes (wordBytes (BitVec.ofNat 32 (w % 2 ^ nbits))) with
  | .ok (i, _) => some i
  | .error _ => none

end Sys2Proof
end

