-- ==== Sys2Proof/Config.lean ====
section
/-! DEFINITION. What is fixed when the block is built: the constants of `00_scope.md` rule R8, the parameters of
rule R9, and what the spec leaves open of the host's animation (constants without a body: nothing can be proved
of their values). -/

namespace Sys2Proof

/-- The two wire orders of a pixel's channel bytes (R32; the two names are the spec's own, D10). -/
inductive Order where
  /-- green, red, blue -/
  | grb
  /-- red, green, blue -/
  | rgb
deriving DecidableEq, Repr, Inhabited

/-- The build variant (R3, R9): informative, read by nothing but the assembler's `RENDER` (R87). -/
inductive Variant where
  | reactive
  | ambient
deriving DecidableEq, Repr, Inhabited

/-- The host's Pixel Buffer: hue and brightness of the sixteen positions (R30, R172). -/
structure PixelBuffer where
  /-- `PB_HUE[0..15]` -/
  hue : Vector Byte 16
  /-- `PB_BRI[0..15]` -/
  bri : Vector Byte 16
deriving DecidableEq, Repr, Inhabited

/-- The animation's "transient per-state parameters (two hue values, two position pointers)" (R185). -/
structure AnimParams where
  hue1 : Byte
  hue2 : Byte
  pos1 : BitVec 4
  pos2 : BitVec 4
deriving DecidableEq, Repr, Inhabited

namespace Config

/-- `NPIX`: pixels in a frame (R8). -/
@[simp] abbrev npix : Nat := 16
/-- `NCHAN`: channel bytes per pixel (R8). -/
@[simp] abbrev nchan : Nat := 3
/-- `NBIT`: bits per byte (R8). -/
@[simp] abbrev nbit : Nat := 8
/-- `FRAME_BITS`: 16 pixels of 3 bytes of 8 bits (R8). -/
@[simp] abbrev frameBits : Nat := npix * nchan * nbit
/-- `HUE_MOD`: the hue domain is [0,192) (R8). -/
@[simp] abbrev hueMod : Nat := 192
/-- `PHASE_LEN`: units of hue per phase (R8). -/
@[simp] abbrev phaseLen : Nat := 64
/-- `NPHASE`: phases of the color wheel (R8). -/
@[simp] abbrev nphase : Nat := 3
/-- `BRI_MAX`: the brightness domain is [0,6] (R8). -/
@[simp] abbrev briMax : Nat := 6
/-- `GAMMA_LEN`: entries of the gamma table (R8). -/
@[simp] abbrev gammaLen : Nat := 64
/-- `FULL`: full scale of an unscaled ramp (R8, R123). -/
@[simp] abbrev full : Nat := 252
/-- `F_CLK` in Hz (R8, R107). -/
@[simp] abbrev fClk : Nat := 9600000
/-- `TH0`: high time of a "0" bit in cycles (R8, R101). -/
@[simp] abbrev th0 : Nat := 3
/-- `TH1`: high time of a "1" bit in cycles (R8, R101). -/
@[simp] abbrev th1 : Nat := 7
/-- `TOL` in nanoseconds (R8); no rule computes with it. -/
@[simp] abbrev tolNs : Nat := 150
/-- `T_RESET_MIN` in microseconds, 50 µs (R8). -/
@[simp] abbrev tResetMinUs : Nat := 50
/-- `T_RESET`: the low time taken as a latch, 50 µs at 9.6 MHz, in cycles (R9, D14). -/
@[simp] abbrev tReset : Nat := 480

/-- Entries 1..63 of the gamma table: OPEN (R9, R31, D12), so no body. Log 5. -/
opaque gammaEntry : Nat → Byte

/-- The built gamma table: entry 0 is 0, the one value the spec fixes (R31). -/
def gamma : Vector Byte 64 :=
  Vector.ofFn fun i : Fin 64 => if i.val = 0 then 0 else gammaEntry i.val

/-- The built wire order: one of two values (R32, D10), which one is not known, so no body. Log 5. -/
opaque order : Order

/-- Raw choices behind the low times, no body (R9, U11). Log 12. -/
opaque tl0Raw : Nat
/-- See `tl0Raw`. -/
opaque tl1Raw : Nat
/-- See `tl0Raw`. -/
opaque tgapRaw : Nat

/-- `TL0`: low time after a "0" bit, at least 1 cycle and below `T_RESET` (R9, R101). -/
def tl0 : Nat := 1 + tl0Raw % (tReset - 1)
/-- `TL1`: low time after a "1" bit, at least 1 cycle and below `T_RESET` (R9, R101). -/
def tl1 : Nat := 1 + tl1Raw % (tReset - 1)
/-- `TGAP`: extra low time inside a frame, `TGAP + max(TL0,TL1) < T_RESET` (R9, R108, D21). -/
def tgap : Nat := tgapRaw % (tReset - max tl0 tl1)

/-- Whether `rotateClockwise()` is the shift `new[p] = old[(p+1) mod 16]` (R178, U13: not in the source), so no
body. Log 14. -/
opaque clockwiseIsPlus : Bool

/-- What the rendering action of each animation state makes of buffer and parameters: "a pure function of current buffer
+ a few persistent scalar parameters" and of what it draws from the generator (R188), of which the spec gives only the
names (R189, N13), so no body. Log 13. -/
opaque renderAction : BitVec 3 → PixelBuffer → AnimParams → BitVec 16 → PixelBuffer × AnimParams

/-- The bounds of the `next` calls a rendering action makes, each one below its bound because a bound is never 0 (R183,
R266); how many and which are open (N13), so no body. Log 13. -/
opaque renderDraws : BitVec 3 → PixelBuffer → AnimParams → BitVec 16 → List Nat

/-- What the entry of a state makes of the parameters, "whose meaning is redefined on each state entry" (R185): open, so
no body. That it depends on the state entered and the old parameters alone, and neither on the buffer nor on a draw from
the generator, is a DESIGN CHOICE (N13). Log 13. -/
opaque enterState : BitVec 3 → AnimParams → AnimParams

/-- How far the two hues have drifted when state 0 comes round again, "one full hue-cycle drift where applicable" (R191):
open, so no body. That it depends on the parameters of the entry before alone is a DESIGN CHOICE. Log 23. -/
opaque hueDrift : AnimParams → Byte × Byte

/-- The fixed step of state 5's rainbow fill (R199); its size is not in the source, so no body. Log 24. -/
opaque rainbowStep : Byte
/-- The positions one tick of state 5 fills, in order (R199: "per pixel"); a function of buffer and
parameters as R188 has every action, and otherwise open, so no body. Log 24. -/
opaque rainbowPixels : PixelBuffer → AnimParams → List (BitVec 4)
/-- Whether a pixel is given the hue after its step or before it (R199): open, so no body. Log 24. -/
opaque rainbowStepsFirst : Bool
/-- Whether state 5 reduces a hue into [0,192) before it stores it (R199, U19): open, so no body. Log 24. -/
opaque rainbowReduces : Bool

/-- How far a step of the reactive spin advances pixel and hue, from pixel, hue and speed (R186, N13: not in the
source), so no body. That it depends on these three alone, and so is the same at one speed in the speeding-up and in the
slowing-down phase, is a DESIGN CHOICE. Log 20. -/
opaque spinAdvance : BitVec 4 → Byte → Nat → BitVec 4 × Byte

/-- Ticks an animation state holds: 1 in state 0, 76 in states 1 to 7 (R188, R189, C6). Log 13. -/
def holdTicks (state : BitVec 3) : Nat := if state = 0 then 1 else 76

end Config

end Sys2Proof
end

