-- ==== Sys2Proof/Machine/State.lean ====
section
/-! DEFINITION. The machine's state as plain data (`10_state.md`, and of the host what `43_host_environment.md`
names), its reset value (`70_reset_and_hazards.md` rule R250), and the ways a step can stop. -/

namespace Sys2Proof.Machine

/-- A trace event (`00_scope.md` rule R13, `10_state.md` rule R27). -/
inductive Event where
  /-- `Pulse(v)`: one bit cell, high for `TH(v)` cycles, then low. -/
  | pulse (v : Bool)
  /-- `Gap`: extra low time shorter than `T_RESET`. The block's commands record none (R27 leaves it to the model). -/
  | gap
  /-- `Latch`: low time of at least `T_RESET`. -/
  | latch
deriving DecidableEq, Repr

/-- The five faults of `60_exceptions.md` rule R222. -/
inductive FaultCode where
  /-- the command word matches no row of R82; raised by fetch. -/
  | reservedCommand
  /-- a hue of 192..255; raised by WRHUE, WRHUEBR, FRAMER, FRAMEA. -/
  | hueOutOfRange
  /-- a brightness of 7..255; raised by WRHUEBR, FRAMEA. -/
  | brightnessOutOfRange
  /-- a transmitting command outside a hold; raised by SENDBIT, SENDBYTE, WRCOLOR, WRHUE, WRHUEBR. -/
  | unprotected
  /-- a hold begun inside a hold or ended outside one; raised by IHOLD, IREL, FRAMER, FRAMEA. -/
  | holdMisuse
deriving DecidableEq, Repr

/-- The fault record `(code, cp, pix, value)` (R28, R223). -/
structure FaultRecord where
  code : FaultCode
  /-- `CP` of the command that raised it. -/
  cp : Nat
  /-- `PIX` at that moment. -/
  pix : BitVec 5
  /-- the offending operand; for `ReservedCommand` the whole command word. -/
  value : CW
deriving DecidableEq, Repr

/-- Where the reactive spin is (`43_host_environment.md` rule R186). -/
inductive SpinPhase where
  /-- a button press starts a spin. -/
  | armed
  /-- speed goes down toward 1. -/
  | faster
  /-- speed goes up toward 96. -/
  | slower
  /-- the spin has stopped; it polls the button and is armed again once that is released (R202). -/
  | waiting
deriving DecidableEq, Repr

/-- The reactive variant's variables (R186), the active pixel and its hue among them (R154). -/
structure Spin where
  phase : SpinPhase
  /-- the delay of a step is proportional to it. -/
  speed : Nat
  pixel : BitVec 4
  hue : Byte
  /-- the button, pressed since its last edge (R202). -/
  pressed : Bool
deriving DecidableEq, Repr

/-- The host's animation state, of both variants (`43_host_environment.md` rules R185, R186). -/
structure Anim where
  /-- which of 8 behaviours is active. -/
  state : BitVec 3
  /-- ticks left before the next state. -/
  countdown : Nat
  /-- the transient parameters. -/
  params : AnimParams
  /-- the parameters as they were when state 0 was last entered (R191). -/
  visit0 : AnimParams
  /-- the reactive variant's. -/
  spin : Spin
deriving DecidableEq, Repr

/-- What the host may do between two commands (R170): write the buffer or `IE`, or one of its named operations.
None of these is a command of the block. -/
inductive HostOp where
  /-- the host writes any two bytes into one position of the Pixel Buffer (R170, R199). -/
  | writePix (p : BitVec 4) (hue bri : Byte)
  /-- the host writes its interrupt enable (R29). -/
  | writeIE (on : Bool)
  /-- `set(position, hue)` (R173). -/
  | set (p : BitVec 4) (hue : Byte)
  /-- `clear()` (R174). -/
  | clear
  /-- `fill(hue)` (R175). -/
  | fill (hue : Byte)
  /-- `fadeIn()` (R176). -/
  | fadeIn
  /-- `fadeOut()` (R177). -/
  | fadeOut
  /-- `rotateClockwise()` (R178). -/
  | rotateClockwise
  /-- `rotateCounterClockwise()` (R178). -/
  | rotateCounterClockwise
  /-- `next(bound)` (R182, R183). -/
  | next (bound : Nat)
  /-- one tick of the ambient animation: the rendering action, then the render call it ends with (R188). -/
  | tick
  /-- the end of a tick, after its render call: the duration counter (R188). `tick` puts it on the schedule. -/
  | tickCount
  /-- a button-press edge of the reactive variant, with the free-running counter's value (R186). -/
  | press (counter : Nat)
  /-- one step of the reactive spin with its re-rendering, or one poll of the button after it (R186, R202). -/
  | spinStep
  /-- the button's release (R186, R202). -/
  | release
deriving DecidableEq, Repr

/-- The whole state. Block and model state is `10_state.md` section 1; the host's is `43_host_environment.md`; `sched`
and `rngOut` are the model's own. -/
structure State where
  /-- `LINE`, the level of `DOUT` (R20). -/
  line : Bool
  /-- `SR`, bits of the current byte not yet sent, left aligned (R21). -/
  sr : Byte
  /-- `BC`, bits of the current byte still to send, 0..8 (R22). -/
  bc : BitVec 4
  /-- `PIX`, the position a frame command is at, 0..16 (R23). -/
  pix : BitVec 5
  /-- `IHOLD`, host interrupts are held off (R24). -/
  ihold : Bool
  /-- `ISAVE`, `IE` as it was when the hold began (R25). -/
  isave : Bool
  /-- `IE`, the host's interrupt enable (R29). -/
  ie : Bool
  /-- `CP`, the index of the next command (R26). -/
  cp : Nat
  /-- `TRACE`, oldest event first (R27). -/
  trace : List Event
  /-- `FAULT` (R28). -/
  fault : Option FaultRecord
  /-- `GAMMA[0..63]` (R31); no command writes it. -/
  gamma : Vector Byte 64
  /-- `ORDER` (R32); no command writes it. -/
  order : Order
  /-- the host's Pixel Buffer (R30); no command writes it. -/
  buf : PixelBuffer
  /-- the random generator's word (R181). -/
  rng : BitVec 16
  /-- what `next` last returned (R182); the model's own field, log 4. -/
  rngOut : Nat
  /-- the animation state (R185). -/
  anim : Anim
  /-- `PROG`, the host's commands (R26); the host's rendering operations issue into it (log 25). -/
  prog : List CW
  /-- host operations to come, each with the command index it stands before; the model's own field, log 9. -/
  sched : List (Nat × HostOp)
deriving DecidableEq, Repr

/-- After power-up (R250). `isave`, the buffer, the animation's counter and parameters, `rngOut`, `sched` and the spin have no
value in the spec: DESIGN CHOICE, logs 1 to 4, 9 and 20, unsafe. `gamma` and `order` are the build's (log 5). -/
def State.reset : State where
  line := false
  sr := 0
  bc := 0
  pix := 0
  ihold := false
  isave := false
  ie := true
  cp := 0
  trace := []
  fault := none
  gamma := Config.gamma
  order := Config.order
  buf := { hue := Vector.replicate 16 0, bri := Vector.replicate 16 0 }
  rng := 0xACE1#16
  rngOut := 0
  anim := { state := 0, countdown := 1
            params := { hue1 := 0, hue2 := 0, pos1 := 0, pos2 := 0 }
            visit0 := { hue1 := 0, hue2 := 0, pos1 := 0, pos2 := 0 }
            spin := { phase := .armed, speed := 0, pixel := 0, hue := 0, pressed := false } }
  prog := []
  sched := []

/-- Why the machine stops. -/
inductive Fault where
  /-- `FAULT` is set: the block executes nothing more (R28, R221, R230). Raised by a step, and by every command,
  in a state whose `fault` holds a record; carries that record. Safe. -/
  | stopped (r : FaultRecord)
deriving DecidableEq, Repr

/-- Why a step has no next state although nothing went wrong with the block. -/
inductive Refusal where
  /-- an instruction that has no meaning yet; raised by `exec` alone. Safe. -/
  | notModelled (mnemonic : String)
  /-- `CP` has reached the end of `PROG` with `FAULT = none`: the run is over and there is no command to execute
  (R251, R258). Raised by a step. Safe. Log 7. -/
  | endOfProgram
  /-- the host called `next(0)`, which has no meaning (R183, U3). Raised by a host step. Safe. -/
  | randomBoundZero
deriving DecidableEq, Repr

end Sys2Proof.Machine
end

