-- ==== Sys2Proof/Machine/Ops.lean ====
section
/-! DEFINITION. The named operations on state and tables: one setter per field the machine writes, `emit`
(`00_scope.md` rule R13), the two reads `GammaRead` and `PixRead` (`20_memory.md` rules R52, R54), `raise`
(`60_exceptions.md` rule R221), and the sequencing of a command's steps. -/

namespace Sys2Proof.Machine

/-- `LINE <- v` (R20). -/
def State.setLine (s : State) (v : Bool) : State := { s with line := v }
/-- `SR <- v` (R21). -/
def State.setSr (s : State) (v : Byte) : State := { s with sr := v }
/-- `BC <- v` (R22). -/
def State.setBc (s : State) (v : BitVec 4) : State := { s with bc := v }
/-- `PIX <- v` (R23). -/
def State.setPix (s : State) (v : BitVec 5) : State := { s with pix := v }
/-- `IHOLD <- v` (R24). -/
def State.setIhold (s : State) (v : Bool) : State := { s with ihold := v }
/-- `ISAVE <- v` (R25). -/
def State.setIsave (s : State) (v : Bool) : State := { s with isave := v }
/-- `IE <- v` (R29). -/
def State.setIe (s : State) (v : Bool) : State := { s with ie := v }
/-- `cp <- cp + 1` (R13, R26). -/
def State.advance (s : State) : State := { s with cp := s.cp + 1 }
/-- `emit(e)`: `TRACE <- TRACE ++ [e]` (R13, R27). -/
def State.emit (s : State) (e : Event) : State := { s with trace := s.trace ++ [e] }
/-- `FAULT <- r` (R28). -/
def State.setFault (s : State) (r : Option FaultRecord) : State := { s with fault := r }
/-- The host writes its Pixel Buffer (R30, R170). -/
def State.setBuf (s : State) (b : PixelBuffer) : State := { s with buf := b }
/-- The random generator's word (R181). -/
def State.setRng (s : State) (v : BitVec 16) : State := { s with rng := v }
/-- What `next` returns to the host (R182). -/
def State.setRngOut (s : State) (v : Nat) : State := { s with rngOut := v }
/-- The animation state (R185). -/
def State.setAnim (s : State) (a : Anim) : State := { s with anim := a }
/-- The commands the host issues (R26). -/
def State.setProg (s : State) (l : List CW) : State := { s with prog := l }
/-- The host operations still to come (log 9). -/
def State.setSched (s : State) (l : List (Nat × HostOp)) : State := { s with sched := l }

/-- `GammaRead(i)`, `0 <= i <= 63` (R52). Entry 0 is hard-wired to 0 here (R31), so it is 0 whatever the table
holds. -/
def State.gammaRead (s : State) (i : Fin 64) : Byte := if i.val = 0 then 0 else s.gamma[i.val]

/-- `PB_HUE[p]` (R30). -/
def bufHue (b : PixelBuffer) (p : BitVec 4) : Byte := b.hue[p.toNat]'p.isLt
/-- `PB_BRI[p]` (R30). -/
def bufBri (b : PixelBuffer) (p : BitVec 4) : Byte := b.bri[p.toNat]'p.isLt

/-- `PixRead(p)`, `0 <= p <= 15` (R54). -/
def State.pixRead (s : State) (p : BitVec 4) : Byte × Byte := (bufHue s.buf p, bufBri s.buf p)

/-- The sixteen entries `f 0 .. f 15` as one of the buffer's two sequences (R30, R172). -/
def tabulate (f : BitVec 4 → Byte) : Vector Byte 16 :=
  #v[f 0, f 1, f 2, f 3, f 4, f 5, f 6, f 7, f 8, f 9, f 10, f 11, f 12, f 13, f 14, f 15]

/-- The code of a fault (R222). -/
def FaultCode.number : FaultCode → Nat
  | .reservedCommand => 1
  | .hueOutOfRange => 2
  | .brightnessOutOfRange => 3
  | .unprotected => 4
  | .holdMisuse => 5

/-- Where a command's steps have got to: `ok` goes on, `stop` is the state a `raise` left, of which no further
step of the command is performed (R221). -/
inductive Run where
  | ok (s : State)
  | stop (s : State)
deriving DecidableEq, Repr

/-- The next step, unless a fault has stopped the command (R221). -/
def Run.bind : Run → (State → Run) → Run
  | .ok s, f => f s
  | .stop s, _ => .stop s

/-- `FAULT <- (code, CP, PIX, value)` if `FAULT` is `none` (R221). -/
def State.recordFault (s : State) (code : FaultCode) (value : CW) : State :=
  s.setFault (match s.fault with
    | none => some ⟨code, s.cp, s.pix, value⟩
    | some r => some r)

/-- `raise code(value)`: record the fault, change nothing else, stop (R13, R221). -/
def raise (code : FaultCode) (value : CW) (s : State) : Run := .stop (s.recordFault code value)

/-- A fetched command: nothing once `FAULT` is set (R28); else its steps, and then `cp <- cp + 1` if none of them
raised a fault (R26, R88). A raised fault is a next state, with `CP` where it was (R221). Log 6. -/
def command (body : State → Run) (s : State) : Host.Outcome State Fault Refusal :=
  match s.fault with
  | some r => .fault (.stopped r)
  | none =>
    match body s with
    | .ok t => .next t.advance
    | .stop t => .next t

end Sys2Proof.Machine
end

