-- ==== Sys2Proof/Machine/Operands.lean ====
section
/-! DEFINITION. Operand forms: operands as recorded values, the legal ranges of a hue and a brightness
(`30_encoding.md` rule R81), and the color arithmetic on them (`41_color_encoder.md` rules R121 to R130), on
mathematical integers as `00_scope.md` rule R12 has it. -/

namespace Sys2Proof.Machine

/-- A byte operand as a fault record's value (R28). -/
def byteValue (b : Byte) : CW := b.setWidth 32
/-- A bit as a fault record's value (R28). -/
def bitValue (v : Bool) : CW := (BitVec.ofBool v).setWidth 32

/-- Go on if the hue is legal, 0..191; else `raise HueOutOfRange(hue)` (R222, R124). -/
def checkHue (hue : Byte) (body : State → Run) (s : State) : Run :=
  if Config.hueMod ≤ hue.toNat then raise .hueOutOfRange (byteValue hue) s else body s

/-- Go on if the brightness is legal, 0..6; else `raise BrightnessOutOfRange(bri)` (R222, R127). -/
def checkBri (bri : Byte) (body : State → Run) (s : State) : Run :=
  if Config.briMax < bri.toNat then raise .brightnessOutOfRange (byteValue bri) s else body s

/-- A pixel's three channel bytes. -/
structure Color where
  r : Byte
  g : Byte
  b : Byte
deriving DecidableEq, Repr

/-- The off pixel (R87 `WROFF`). -/
def Color.off : Color := ⟨0, 0, 0⟩

/-- `Wire(r, g, b)`: the bytes in the order they go out (R121). -/
def wire (order : Order) (c : Color) : Byte × Byte × Byte :=
  match order with
  | .grb => (c.g, c.r, c.b)
  | .rgb => (c.r, c.g, c.b)

/-- `phase = hue div 64` (R122). -/
def huePhase (hue : Byte) : Nat := hue.toNat / Config.phaseLen

/-- `s = hue mod 64` (R122): the rising ramp of WRHUEBR (R126). -/
def hueStep (hue : Byte) : Fin 64 := ⟨hue.toNat % 64, Nat.mod_lt _ (by decide)⟩

/-- `n = 63 - s`: the falling ramp of WRHUEBR (R126). -/
def hueFall (hue : Byte) : Fin 64 := ⟨63 - hue.toNat % 64, by omega⟩

/-- Which channel takes the falling and which the rising ramp, by phase (R130). A phase above 2 is not reached:
`checkHue` has faulted. -/
def placeRamps (phase : Nat) (falling rising : Byte) : Color :=
  if phase = 0 then ⟨falling, rising, 0⟩
  else if phase = 1 then ⟨0, falling, rising⟩
  else ⟨rising, 0, falling⟩

/-- `step = 4 s` as a byte (R123). -/
def rampUp (hue : Byte) : Byte := BitVec.ofNat 8 (4 * (hueStep hue).val)
/-- `nstep = 252 - step` as a byte (R123). -/
def rampDown (hue : Byte) : Byte := BitVec.ofNat 8 (Config.full - 4 * (hueStep hue).val)

/-- The triple of WRHUE (R124). -/
def hueColor (hue : Byte) : Color := placeRamps (huePhase hue) (rampDown hue) (rampUp hue)

/-- `idx(x) = x >> (6 - bri)`, in 0..63 because `x` is (R53, R126). -/
def gammaIndex (x : Fin 64) (bri : Byte) : Fin 64 :=
  ⟨x.val >>> (Config.briMax - bri.toNat), Nat.lt_of_le_of_lt (Nat.shiftRight_le _ _) x.isLt⟩

/-- The triple of WRHUEBR (R127): the idle channel is the literal 0 (D24). -/
def hueBrColor (s : State) (hue bri : Byte) : Color :=
  placeRamps (huePhase hue) (s.gammaRead (gammaIndex (hueFall hue) bri))
    (s.gammaRead (gammaIndex (hueStep hue) bri))

end Sys2Proof.Machine
end

