-- ==== Sys2Proof/Machine/Flags.lean ====
section
/-! DEFINITION. The block has no condition codes (`10_state.md` section 4); its two flags are `IHOLD` and `ISAVE`. Here
is every use of them: the check of a transmitting command, the begin and the end of a hold. -/

namespace Sys2Proof.Machine

/-- Go on under a hold; else `raise Unprotected(operand)` before anything moves (R24, R224). -/
def checkHold (operand : CW) (body : State → Run) (s : State) : Run :=
  if s.ihold then body s else raise .unprotected operand s

/-- The body of `IHOLD` (R150): save `IE`, suppress it, set the flag. -/
def beginHold (s : State) : Run :=
  if s.ihold then raise .holdMisuse (bitValue true) s
  else .ok (((s.setIsave s.ie).setIe false).setIhold true)

/-- The body of `IREL` (R151): put `IE` back, clear the flag. -/
def endHold (s : State) : Run :=
  if s.ihold then .ok ((s.setIe s.isave).setIhold false)
  else raise .holdMisuse (bitValue false) s

end Sys2Proof.Machine
end

