-- ==== Sys2Proof/Machine/Transmitter.lean ====
section
/-! DEFINITION. The Bit/Byte Transmitter (`40_transmitter.md`): the bodies of `SENDBIT`, `SENDBYTE`, `LATCH`, which
other commands call (`30_encoding.md` rule R88), and the meanings of the fetched commands. -/

namespace Sys2Proof.Machine

/-- The body of `SENDBIT v` (R100): the line rises and falls, one `Pulse(v)`. -/
def sendBit (v : Bool) (s : State) : Run :=
  checkHold (bitValue v) (fun s => .ok (((s.setLine true).setLine false).emit (.pulse v))) s

/-- `SR <- (SR << 1)[7:0]; BC <- BC - 1` (R102). -/
def shiftOut (s : State) : State := (s.setSr (s.sr <<< 1)).setBc (s.bc - 1)

/-- The loop of `SENDBYTE` (R102), `n` times round: send `SR[7]`, shift, count down. -/
def sendBits : Nat → State → Run
  | 0, s => .ok s
  | n + 1, s => (sendBit (s.sr.getLsbD 7) s).bind fun t => sendBits n (shiftOut t)

/-- The body of `SENDBYTE value` (R102): the loop runs while `BC` is not 0, that is `BC` = 8 times. -/
def sendByte (value : Byte) (s : State) : Run :=
  checkHold (byteValue value)
    (fun s => sendBits (BitVec.toNat 8#4) ((s.setSr value).setBc 8#4)) s

/-- The body of `LATCH` (R104): the line stays as it is, low; one `Latch`. -/
def latchGap (s : State) : Run := .ok (s.emit .latch)

/-- `SENDBIT v` (R100). -/
def execSendbit (v : Bool) (s : State) : Host.Outcome State Fault Refusal := command (sendBit v) s

/-- `SENDBYTE value` (R102). -/
def execSendbyte (value : Byte) (s : State) : Host.Outcome State Fault Refusal :=
  command (sendByte value) s

/-- `LATCH` (R104): legal with and without a hold. -/
def execLatch (s : State) : Host.Outcome State Fault Refusal := command latchGap s

end Sys2Proof.Machine
end

