-- ==== Sys2Proof/Machine/Encoder.lean ====
section
/-! DEFINITION. The Pixel Color Encoder (`41_color_encoder.md`): the bodies of `WRCOLOR`, `WRHUE`, `WRHUEBR`, which
the frame commands call, and the meanings of the fetched commands. -/

namespace Sys2Proof.Machine

/-- The body of `WRCOLOR r, g, b` (R120): three bytes in wire order. -/
def wrColor (c : Color) (s : State) : Run :=
  checkHold (byteValue c.r)
    (fun s =>
      let w := wire s.order c
      ((sendByte w.1 s).bind (sendByte w.2.1)).bind (sendByte w.2.2)) s

/-- The body of `WRHUE hue` (R124): hold first, then hue (R229). -/
def wrHue (hue : Byte) (s : State) : Run :=
  checkHold (byteValue hue) (checkHue hue (wrColor (hueColor hue))) s

/-- The body of `WRHUEBR hue, bri` (R127): hold, then hue, then brightness (R229). -/
def wrHueBr (hue bri : Byte) (s : State) : Run :=
  checkHold (byteValue hue)
    (checkHue hue (checkBri bri fun s => wrColor (hueBrColor s hue bri) s)) s

/-- `WRCOLOR r, g, b` (R120). -/
def execWrcolor (r g b : Byte) (s : State) : Host.Outcome State Fault Refusal :=
  command (wrColor ⟨r, g, b⟩) s

/-- `WRHUE hue` (R124). -/
def execWrhue (hue : Byte) (s : State) : Host.Outcome State Fault Refusal := command (wrHue hue) s

/-- `WRHUEBR hue, bri` (R127). -/
def execWrhuebr (hue bri : Byte) (s : State) : Host.Outcome State Fault Refusal :=
  command (wrHueBr hue bri) s

end Sys2Proof.Machine
end

