-- ==== Sys2Proof/Machine/FrameDriver.lean ====
section
/-! DEFINITION. The Frame Driver (`42_frame_driver.md`): `IHOLD`, `IREL`, and the two frame commands over one shared
loop. A fault inside a frame leaves it where it stands (R160). -/

namespace Sys2Proof.Machine

/-- The loop of a frame (R154, R155), `n` positions left: one pixel, then `PIX <- PIX + 1`. -/
def framePixels (pixel : State → Run) : Nat → State → Run
  | 0, s => .ok s
  | n + 1, s => (pixel s).bind fun t => framePixels pixel n (t.setPix (t.pix + 1))

/-- A whole frame (R154, R155): begin the hold, `PIX <- 0`, the loop while `PIX` is not 16, end the hold. -/
def frame (pixel : State → Run) (s : State) : Run :=
  ((beginHold s).bind fun t => framePixels pixel Config.npix (t.setPix 0)).bind endHold

/-- A pixel of `FRAMER` (R154): the active position gets the hue, every other one is off. -/
def reactivePixel (pos : BitVec 4) (hue : Byte) (s : State) : Run :=
  if s.pix = pos.setWidth 5 then wrHue hue s else wrColor Color.off s

/-- A pixel of `FRAMEA` (R155): `PixRead(PIX)`, then WRHUEBR of the pair. Inside the loop `PIX` is 0..15 and its
low four bits are its value (R161). -/
def ambientPixel (s : State) : Run :=
  let hl := s.pixRead (s.pix.setWidth 4)
  wrHueBr hl.1 hl.2 s

/-- `IHOLD` (R150). -/
def execIhold (s : State) : Host.Outcome State Fault Refusal := command beginHold s

/-- `IREL` (R151). -/
def execIrel (s : State) : Host.Outcome State Fault Refusal := command endHold s

/-- `FRAMER pos, hue` (R154). -/
def execFramer (pos : BitVec 4) (hue : Byte) (s : State) : Host.Outcome State Fault Refusal :=
  command (frame (reactivePixel pos hue)) s

/-- `FRAMEA` (R155). -/
def execFramea (s : State) : Host.Outcome State Fault Refusal := command (frame ambientPixel) s

end Sys2Proof.Machine
end

