-- ==== Sys2Proof/Machine/Dispatch.lean ====
section
/-! DEFINITION. One arm per command: the call of its meaning. -/

namespace Sys2Proof.Machine

open Sys2Proof

def exec (i : Instr) (s : State) : Host.Outcome State Fault Refusal :=
  match i with
  | .sendbit v => Sys2Proof.Machine.execSendbit v s
  | .sendbyte value => Sys2Proof.Machine.execSendbyte value s
  | .wrcolor r g b => Sys2Proof.Machine.execWrcolor r g b s
  | .wrhue hue => Sys2Proof.Machine.execWrhue hue s
  | .wrhuebr hue bri => Sys2Proof.Machine.execWrhuebr hue bri s
  | .latch => Sys2Proof.Machine.execLatch s
  | .ihold => Sys2Proof.Machine.execIhold s
  | .irel => Sys2Proof.Machine.execIrel s
  | .framer pos hue => Sys2Proof.Machine.execFramer pos hue s
  | .framea => Sys2Proof.Machine.execFramea s

end Sys2Proof.Machine
end

