-- ==== Sys2Proof/Machine/HostOps.lean ====
section
/-! DEFINITION. The host's operations of `43_host_environment.md`: Pixel Buffer (R172 to R178), random generator (R181 to
R183), animation tick (R185, R188, R189, R191, R199), reactive spin (R186, R202), and the commands the last two issue
(R203). They are no commands; a step performs one between two commands (log 9). -/

namespace Sys2Proof.Machine

/-- The host writes one position of its buffer (R170). -/
def bufWrite (p : BitVec 4) (hue bri : Byte) (b : PixelBuffer) : PixelBuffer where
  hue := tabulate fun q => if q = p then hue else bufHue b q
  bri := tabulate fun q => if q = p then bri else bufBri b q

/-- `set(position, hue)`: hue there, brightness 6 there (R173). -/
def bufSet (p : BitVec 4) (hue : Byte) (b : PixelBuffer) : PixelBuffer := bufWrite p hue 6 b

/-- `clear()`: every brightness 0, hues unchanged (R174). -/
def bufClear (b : PixelBuffer) : PixelBuffer := { b with bri := tabulate fun _ => 0 }

/-- `fill(hue)`: every hue, brightness unchanged (R175). -/
def bufFill (hue : Byte) (b : PixelBuffer) : PixelBuffer := { b with hue := tabulate fun _ => hue }

/-- `fadeIn()`: every brightness below 6 goes up by one (R176). -/
def bufFadeIn (b : PixelBuffer) : PixelBuffer :=
  { b with bri := tabulate fun p =>
      if (bufBri b p).toNat < Config.briMax then bufBri b p + 1 else bufBri b p }

/-- `fadeOut()`: every brightness above 0 goes down by one (R177). -/
def bufFadeOut (b : PixelBuffer) : PixelBuffer :=
  { b with bri := tabulate fun p =>
      if 0 < (bufBri b p).toNat then bufBri b p - 1 else bufBri b p }

/-- Both sequences shifted circularly, `new[p] = old[(p + k) mod 16]` (R178; `p + k` wraps at 16). -/
def bufRotate (k : BitVec 4) (b : PixelBuffer) : PixelBuffer where
  hue := tabulate fun p => bufHue b (p + k)
  bri := tabulate fun p => bufBri b (p + k)

/-- `rotateClockwise()`: one of the two shifts, which one the source does not say (R178, U13). -/
def bufClockwise (b : PixelBuffer) : PixelBuffer :=
  bufRotate (if Config.clockwiseIsPlus then 1 else 15) b

/-- `rotateCounterClockwise()`: the other shift (R178). -/
def bufCounterClockwise (b : PixelBuffer) : PixelBuffer :=
  bufRotate (if Config.clockwiseIsPlus then 15 else 1) b

/-- One advance of the generator: shift right; feedback `0xB400` if the bit shifted out was 1 (R182). -/
def lfsrAdvance (v : BitVec 16) : BitVec 16 :=
  if v.getLsbD 0 then (v >>> 1) ^^^ 0xB400#16 else v >>> 1

/-- `next(bound)` for a nonzero bound: advance, return the new state modulo the bound (R182). -/
def randomNext (bound : Nat) (s : State) : State :=
  (s.setRng (lfsrAdvance s.rng)).setRngOut ((lfsrAdvance s.rng).toNat % bound)

/-! ## Issuing commands -/

/-- The host issues commands now: they stand in `PROG` at `CP`, before those still to come; `after` is what the host does
between them, and what it had still to do waits until they are done (R26, R170: one thread of control). Log 25. -/
def issue (cmds : List Instr) (after : List (Nat × HostOp)) (s : State) : State :=
  (s.setProg (s.prog.take s.cp ++ cmds.map encode ++ s.prog.drop s.cp)).setSched
    (after ++ s.sched.map fun e => (max e.1 s.cp + cmds.length, e.2))

/-! ## The ambient animation -/

/-- A hue "wrapped back into [0,192)" (R172). -/
def wrapHue (h : Byte) : Byte := BitVec.ofNat 8 (h.toNat % Config.hueMod)

/-- A brightness clamped to 6 (R172). -/
def clampBri (b : Byte) : Byte := if Config.briMax < b.toNat then 6 else b

/-- The buffer with every hue wrapped and every brightness clamped (R172). -/
def bufLegal (b : PixelBuffer) : PixelBuffer where
  hue := tabulate fun p => wrapHue (bufHue b p)
  bri := tabulate fun p => clampBri (bufBri b p)

/-- The parameters with both hues wrapped: "the 192-domain wraparound used elsewhere in the system" (R199). -/
def wrapParams (q : AnimParams) : AnimParams :=
  { q with hue1 := wrapHue q.hue1, hue2 := wrapHue q.hue2 }

/-- The calls of `next` a rendering action makes, with bounds `k + 1` (R182, R188). -/
def drawAll (l : List Nat) (s : State) : State := l.foldl (fun s k => randomNext (k + 1) s) s

/-- One pixel of the rainbow fill: `hue1` goes on by the fixed step, wrapping at 256, and the pixel gets it (R199). -/
def rainbowPixel (c : PixelBuffer × Byte) (p : BitVec 4) : PixelBuffer × Byte :=
  let next := c.2 + Config.rainbowStep
  let h := if Config.rainbowStepsFirst then next else c.2
  (bufWrite p (if Config.rainbowReduces then wrapHue h else h) (bufBri c.1 p) c.1, next)

/-- The rainbow fill over a list of positions (R199). Log 24. -/
def rainbowFill (l : List (BitVec 4)) (c : PixelBuffer × Byte) : PixelBuffer × Byte :=
  l.foldl rainbowPixel c

/-- What a rendering action leaves of buffer and parameters: free but for the domains of R172, and in state 5 for the
fill of the hues and for `hue1` (R199). -/
def rendered (state : BitVec 3) (buf : PixelBuffer) (q : AnimParams) (rng : BitVec 16) :
    PixelBuffer × AnimParams :=
  let r := Config.renderAction state buf q rng
  if state = 5 then
    let f := rainbowFill (Config.rainbowPixels buf q) ({ (bufLegal r.1) with hue := buf.hue }, q.hue1)
    (f.1, { wrapParams r.2 with hue1 := f.2 })
  else (bufLegal r.1, wrapParams r.2)

/-- The rendering action of a tick: its draws from the generator, then buffer and parameters (R188). Log 13. -/
def animAct (s : State) : State :=
  let a := s.anim
  let r := rendered a.state s.buf a.params s.rng
  ((drawAll (Config.renderDraws a.state s.buf a.params s.rng) s).setBuf r.1).setAnim
    { a with params := r.2 }

/-- A tick as far as its render call: the action, and then the host issues one `FRAMEA` and the latch gap after it; the
counter is due between the two (R188, R203). Log 25. -/
def animTick (s : State) : State :=
  issue [.framea, .latch] [(s.cp + 1, .tickCount)] (animAct s)

/-- The parameters state 0 is entered with: those of its previous entry, the hues drifted (R191). Log 23. -/
def visitParams (q : AnimParams) : AnimParams :=
  let d := Config.hueDrift q
  { q with
    hue1 := BitVec.ofNat 8 ((q.hue1.toNat + d.1.toNat) % Config.hueMod)
    hue2 := BitVec.ofNat 8 ((q.hue2.toNat + d.2.toNat) % Config.hueMod) }

/-- The entry of a state: its counter is set, and its parameters (R185, R188, R191). That an entry reads and writes nothing
else, no buffer and no draw from the generator, is a DESIGN CHOICE, for the spec does not say what an entry may read or
write (N13). Log 13. -/
def animEnter (state : BitVec 3) (a : Anim) : Anim :=
  let q := if state = 0 then visitParams a.visit0 else wrapParams (Config.enterState state a.params)
  { a with
    state := state, countdown := Config.holdTicks state, params := q
    visit0 := if state = 0 then q else a.visit0 }

/-- The duration counter of a tick: down by one; at zero the next state of eight is entered (R188). -/
def animCount (a : Anim) : Anim :=
  if a.countdown ≤ 1 then animEnter (a.state + 1) a else { a with countdown := a.countdown - 1 }

/-- What a whole tick does to the host, its frame left aside: the action, then the count. -/
def tickEffect (s : State) : State := (animAct s).setAnim (animCount (animAct s).anim)

/-! ## The reactive spin -/

/-- A press: the button is down, and an armed spin starts, at a speed in [16,32) from the counter's low bits (R186). A
press in another phase starts nothing: DESIGN CHOICE, log 20. -/
def spinPress (counter : Nat) (p : Spin) : Spin :=
  match p.phase with
  | .armed => { p with phase := .faster, speed := 16 + counter % 16, pressed := true }
  | .faster => { p with pressed := true }
  | .slower => { p with pressed := true }
  | .waiting => { p with pressed := true }

/-- Pixel and hue of a step: how far they go is open, the hue is wrapped back into [0,192) (R172, R186, N13). -/
def spinMove (p : Spin) : Spin :=
  let m := Config.spinAdvance p.pixel p.hue p.speed
  { p with pixel := m.1, hue := wrapHue m.2 }

/-- One step: speed down to 1, then up to 96, pixel and hue advanced with each (R186). Stopped, the spin polls the button
and is armed again once it is up, at once if it was released during the spin: DESIGN CHOICE from R202's "polled via a
blocking wait loop after the spin completes", log 20. -/
def spinStep (p : Spin) : Spin :=
  match p.phase with
  | .armed => p
  | .faster =>
    { spinMove p with speed := p.speed - 1, phase := if p.speed - 1 ≤ 1 then .slower else .faster }
  | .slower =>
    { spinMove p with speed := p.speed + 1, phase := if 96 ≤ p.speed + 1 then .waiting else .slower }
  | .waiting => if p.pressed then p else { p with phase := .armed }

/-- Whether a step re-renders: while the spin turns, and not while it waits. -/
def Spin.turning (p : Spin) : Bool := p.phase == .faster || p.phase == .slower

/-- The button is up (R202). In every phase that is all a release does; a stopped spin sees it at its next poll
(`spinStep`): DESIGN CHOICE, log 20. -/
def spinRelease (p : Spin) : Spin := { p with pressed := false }

/-- A host operation on the spin. -/
def onSpin (f : Spin → Spin) (s : State) : State := s.setAnim { s.anim with spin := f s.anim.spin }

/-- A step of the spin with its re-rendering: the host issues one `FRAMER` of the new pixel and hue, and the delay after
it, which is the latch gap (R186). Log 25. -/
def spinTurn (s : State) : State :=
  let t := onSpin spinStep s
  if s.anim.spin.turning then issue [.framer t.anim.spin.pixel t.anim.spin.hue, .latch] [] t else t

/-- What a host operation does. -/
def hostDo (op : HostOp) (s : State) : Host.Outcome State Fault Refusal :=
  match op with
  | .writePix p hue bri => .next (s.setBuf (bufWrite p hue bri s.buf))
  | .writeIE on => .next (s.setIe on)
  | .set p hue => .next (s.setBuf (bufSet p hue s.buf))
  | .clear => .next (s.setBuf (bufClear s.buf))
  | .fill hue => .next (s.setBuf (bufFill hue s.buf))
  | .fadeIn => .next (s.setBuf (bufFadeIn s.buf))
  | .fadeOut => .next (s.setBuf (bufFadeOut s.buf))
  | .rotateClockwise => .next (s.setBuf (bufClockwise s.buf))
  | .rotateCounterClockwise => .next (s.setBuf (bufCounterClockwise s.buf))
  | .next bound => if bound = 0 then .refused .randomBoundZero else .next (randomNext bound s)
  | .tick => .next (animTick s)
  | .tickCount => .next (s.setAnim (animCount s.anim))
  | .press counter => .next (onSpin (spinPress counter) s)
  | .spinStep => .next (spinTurn s)
  | .release => .next (onSpin spinRelease s)

end Sys2Proof.Machine
end

