-- ==== Sys2Proof/Machine/Fetch.lean ====
section
/-! DEFINITION. Whose turn it is, and fetching a command (`10_state.md` rule R26, `60_exceptions.md` rules R221, R226,
`70_reset_and_hazards.md` rules R251, R258). -/

namespace Sys2Proof.Machine

/-- What the next step is. -/
inductive Turn where
  /-- `FAULT` is set: nothing more is executed (R28). -/
  | stopped (r : FaultRecord)
  /-- a host operation, and those after it (log 9). -/
  | host (op : HostOp) (rest : List (Nat × HostOp))
  /-- the command word at `CP`. -/
  | command (w : CW)
  /-- `CP = length(PROG)`: the run is over (R258). -/
  | over
deriving DecidableEq, Repr

/-- The host operation due now, if any: it stands before a command not yet executed past, and no hold is in force,
for under a hold the only enabled step is the block's (R29, R226). -/
def State.hostDue (s : State) : Option (HostOp × List (Nat × HostOp)) :=
  match s.sched with
  | [] => none
  | (n, op) :: rest => if n ≤ s.cp ∧ s.ihold = false then some (op, rest) else none

/-- Whose turn it is: the fault first, then the host, then the command at `CP`. At `CP = length(PROG)` the operations
still due come first and the run is over only when none is: DESIGN CHOICE, for R26 and R258 end the run there and R29
and R170 let the host act at any time outside a hold. Logs 7 and 9. -/
def State.turn (s : State) : Turn :=
  match s.fault with
  | some r => .stopped r
  | none =>
    match s.hostDue with
    | some (op, rest) => .host op rest
    | none =>
      match s.prog[s.cp]? with
      | some w => .command w
      | none => .over

/-- Execute a fetched word: the command it decodes to, or `raise ReservedCommand(w)` (R85, R222). -/
def runWord (w : CW) (s : State) : Host.Outcome State Fault Refusal :=
  match decode w with
  | .ok i => exec i s
  | .error _ => command (raise .reservedCommand w) s

/-- The list with `w` at index `n`, filled up before it with zero words where it is shorter (log 8). -/
def placeAt (l : List CW) (n : Nat) (w : CW) : List CW :=
  l.take n ++ List.replicate (n - l.length) 0 ++ w :: l.drop (n + 1)

/-- The host operations that are not due at `CP`. -/
def State.schedLater (s : State) : List (Nat × HostOp) :=
  if s.ihold then s.sched else s.sched.filter fun e => decide (s.cp < e.1)

end Sys2Proof.Machine
end

