-- ==== Sys2Proof/Machine/Step.lean ====
section
/-! DEFINITION. One step of the machine, and placing a command word where the next step fetches. -/

namespace Sys2Proof.Machine

/-- One step: a stopped block executes nothing (R221); else the host's operation that is due (R170); else the
command at `CP` (R26); at the end of `PROG` there is nothing to execute (R258). -/
def step (s : State) : Host.Outcome State Fault Refusal :=
  match s.turn with
  | .stopped r => .fault (.stopped r)
  | .host op rest => hostDo op (s.setSched rest)
  | .command w => runWord w s
  | .over => .refused .endOfProgram

/-- The state with the opcode table's word at `PROG[CP]`, no fault and no host operation due, so that the next step
fetches exactly that word. Log 8. -/
def State.withFetchWord (s : State) (nbits w : Nat) : State :=
  { s with
    prog := placeAt s.prog s.cp (BitVec.ofNat 32 (w % 2 ^ nbits))
    fault := none
    sched := s.schedLater }

end Sys2Proof.Machine
end

