-- ==== Sys2Proof/Machine/Asm.lean ====
section
/-! DEFINITION. The assembler's syntax (`30_encoding.md` rule R86) and its pseudo-commands (rule R87): a source line
to the commands it stands for. `none` is a line the rules give no meaning. The pseudo-commands have no encoding of
their own. Log 18. -/

namespace Sys2Proof.Machine

/-- A line of source text. -/
abbrev Line := List Char

/-- A space or a tab. -/
def isBlank (c : Char) : Bool := c == ' ' || c == '\t'

/-- Without the blanks at both ends. -/
def trimBlanks (t : Line) : Line := ((t.dropWhile isBlank).reverse.dropWhile isBlank).reverse

/-- Without the comment: "from `;` to the end of the line" (R86). -/
def stripComment (t : Line) : Line := t.takeWhile (· != ';')

/-- The fields between commas. -/
def splitCommas : Line → List Line
  | [] => [[]]
  | c :: cs =>
    if c == ',' then [] :: splitCommas cs
    else
      match splitCommas cs with
      | [] => [[c]]
      | f :: fs => (c :: f) :: fs

/-- The value of a digit, hexadecimal letters in either case. -/
def digitValue (c : Char) : Option Nat :=
  if '0' ≤ c ∧ c ≤ '9' then some (c.toNat - '0'.toNat)
  else if 'a' ≤ c ∧ c ≤ 'f' then some (c.toNat - 'a'.toNat + 10)
  else if 'A' ≤ c ∧ c ≤ 'F' then some (c.toNat - 'A'.toNat + 10)
  else none

/-- Read digits of a base into a number. -/
def readDigits (base : Nat) : Nat → Line → Option Nat
  | acc, [] => some acc
  | acc, c :: cs =>
    match digitValue c with
    | some d => if d < base then readDigits base (acc * base + d) cs else none
    | none => none

/-- A number: "decimal, or hexadecimal with the prefix `0x`" (R86). -/
def readNumber (t : Line) : Option Nat :=
  match t with
  | [] => none
  | '0' :: 'x' :: ds => if ds = [] then none else readDigits 16 0 ds
  | ds => readDigits 10 0 ds

/-- An operand of `w` bits, if the number fits it (R10, R81). -/
def fit (w n : Nat) : Option (BitVec w) := if n < 2 ^ w then some (BitVec.ofNat w n) else none

/-- The operands of a line. -/
def readOperands (t : Line) : Option (List Nat) :=
  if t = [] then some [] else (splitCommas t).mapM fun f => readNumber (trimBlanks f)

/-- `RENDER`, by the variant: `FRAMER pos, hue` or `FRAMEA` (R87). -/
def renderOf (variant : Variant) (ops : List Nat) : Option Instr :=
  match variant, ops with
  | .reactive, [p, h] => do return .framer (← fit 4 p) (← fit 8 h)
  | .ambient, [] => some .framea
  | _, _ => none

/-- The mnemonics: the ten of R82, then the pseudo-commands of R87. -/
inductive Keyword where
  | sendbit
  | sendbyte
  | wrcolor
  | wrhue
  | wrhuebr
  | latch
  | ihold
  | irel
  | framer
  | framea
  | wroff
  | render
  | showFrame
deriving DecidableEq, Repr

/-- How a mnemonic is written, in capitals (R86). -/
def keywordText : Keyword → Line
  | .sendbit => ['S', 'E', 'N', 'D', 'B', 'I', 'T']
  | .sendbyte => ['S', 'E', 'N', 'D', 'B', 'Y', 'T', 'E']
  | .wrcolor => ['W', 'R', 'C', 'O', 'L', 'O', 'R']
  | .wrhue => ['W', 'R', 'H', 'U', 'E']
  | .wrhuebr => ['W', 'R', 'H', 'U', 'E', 'B', 'R']
  | .latch => ['L', 'A', 'T', 'C', 'H']
  | .ihold => ['I', 'H', 'O', 'L', 'D']
  | .irel => ['I', 'R', 'E', 'L']
  | .framer => ['F', 'R', 'A', 'M', 'E', 'R']
  | .framea => ['F', 'R', 'A', 'M', 'E', 'A']
  | .wroff => ['W', 'R', 'O', 'F', 'F']
  | .render => ['R', 'E', 'N', 'D', 'E', 'R']
  | .showFrame => ['S', 'H', 'O', 'W']

/-- Every mnemonic. -/
def keywords : List Keyword :=
  [.sendbit, .sendbyte, .wrcolor, .wrhue, .wrhuebr, .latch, .ihold, .irel, .framer, .framea,
   .wroff, .render, .showFrame]

/-- The mnemonic a word of the line is, if it is one. -/
def readKeyword (t : Line) : Option Keyword := keywords.find? fun k => keywordText k == t

/-- The commands of a mnemonic with its operands, in the source's order: one for a command of R82, the expansion for a
pseudo-command (R87); `none` where their number or a value does not fit. -/
def assembleOp (variant : Variant) (k : Keyword) (ops : List Nat) : Option (List Instr) :=
  match k, ops with
  | .sendbit, [v] => do return [.sendbit ((← fit 1 v) == 1#1)]
  | .sendbyte, [v] => do return [.sendbyte (← fit 8 v)]
  | .wrcolor, [r, g, b] => do return [.wrcolor (← fit 8 r) (← fit 8 g) (← fit 8 b)]
  | .wrhue, [h] => do return [.wrhue (← fit 8 h)]
  | .wrhuebr, [h, l] => do return [.wrhuebr (← fit 8 h) (← fit 8 l)]
  | .latch, [] => some [.latch]
  | .ihold, [] => some [.ihold]
  | .irel, [] => some [.irel]
  | .framer, [p, h] => do return [.framer (← fit 4 p) (← fit 8 h)]
  | .framea, [] => some [.framea]
  | .wroff, [] => some [.wrcolor 0 0 0]
  | .render, _ => do return [← renderOf variant ops]
  | .showFrame, _ => do return [← renderOf variant ops, .latch]
  | _, _ => none

/-- One line: the mnemonic, then the operands; a line of blanks or comment alone stands for no command (R86). -/
def assembleLine (variant : Variant) (t : Line) : Option (List Instr) :=
  let u := trimBlanks (stripComment t)
  if u = [] then some []
  else
    match readKeyword (u.takeWhile fun c => !isBlank c),
      readOperands (trimBlanks (u.dropWhile fun c => !isBlank c)) with
    | some k, some ops => assembleOp variant k ops
    | _, _ => none

/-- A program: the command words of its lines in order (R26, R86). -/
def assemble (variant : Variant) (lines : List Line) : Option (List CW) :=
  (lines.mapM (assembleLine variant)).map fun l => l.flatten.map encode

/-- The operands of a command, in the source's order (R86). -/
def operandsOf : Instr → List Nat
  | .sendbit v => [v.toNat]
  | .sendbyte v => [v.toNat]
  | .wrcolor r g b => [r.toNat, g.toNat, b.toNat]
  | .wrhue h => [h.toNat]
  | .wrhuebr h l => [h.toNat, l.toNat]
  | .latch => []
  | .ihold => []
  | .irel => []
  | .framer p h => [p.toNat, h.toNat]
  | .framea => []

/-- The mnemonic of a command (R82). -/
def keywordOf : Instr → Keyword
  | .sendbit _ => .sendbit
  | .sendbyte _ => .sendbyte
  | .wrcolor _ _ _ => .wrcolor
  | .wrhue _ => .wrhue
  | .wrhuebr _ _ => .wrhuebr
  | .latch => .latch
  | .ihold => .ihold
  | .irel => .irel
  | .framer _ _ => .framer
  | .framea => .framea

end Sys2Proof.Machine
end

