-- ==== Sys2Proof/Machine/Wire.lean ====
section
/-! DEFINITION. What goes out on the line, as the laws of the spec say it and not as the loops compute it: the byte law
(`40_transmitter.md` rule R103), a pixel (`41_color_encoder.md` rule R121), a frame (`42_frame_driver.md` rule
R157), the frame's bit formula (`20_memory.md` rule R58), and the timing figures of the events (rules R101, R103,
R271). No command reads these; statements are written with them. -/

namespace Sys2Proof.Machine

/-- The eight events of a byte: `Pulse(v[7]) .. Pulse(v[0])` (R103). -/
def byteEvents (v : Byte) : List Event :=
  [ .pulse (v.getLsbD 7), .pulse (v.getLsbD 6), .pulse (v.getLsbD 5), .pulse (v.getLsbD 4),
    .pulse (v.getLsbD 3), .pulse (v.getLsbD 2), .pulse (v.getLsbD 1), .pulse (v.getLsbD 0) ]

/-- The 24 events of a pixel, `Wire(r, g, b)` first component first (R121). -/
def colorEvents (order : Order) (c : Color) : List Event :=
  byteEvents (wire order c).1 ++ byteEvents (wire order c).2.1 ++ byteEvents (wire order c).2.2

/-- The events of the pixels `p, p + 1, ..`, `n` of them, with the triple `color p` at position `p` (R157). -/
def pixelsEvents (order : Order) (color : Nat → Color) : Nat → Nat → List Event
  | _, 0 => []
  | p, n + 1 => colorEvents order (color p) ++ pixelsEvents order color (p + 1) n

/-- The 384 events of a frame, positions 0 to 15 ascending (R57, R157). -/
def frameEvents (order : Order) (color : Nat → Color) : List Event :=
  pixelsEvents order color 0 Config.npix

/-- The triple of position `p` in `FRAMER pos, hue` (R154, R157). -/
def reactiveColor (pos : BitVec 4) (hue : Byte) (p : Nat) : Color :=
  if p = pos.toNat then hueColor hue else Color.off

/-- The triple of position `p` in `FRAMEA` (R155, R157). -/
def ambientColor (s : State) (p : Nat) : Color :=
  hueBrColor s (bufHue s.buf (BitVec.ofNat 4 p)) (bufBri s.buf (BitVec.ofNat 4 p))

/-- The buffer entry at `p` is in the Encoder's domain: hue below 192, brightness at most 6 (R30, R155). -/
def pixelLegal (b : PixelBuffer) (p : BitVec 4) : Bool :=
  decide ((bufHue b p).toNat < Config.hueMod) && decide ((bufBri b p).toNat ≤ Config.briMax)

/-- `W(p, j)`: the `j`-th wire byte of a pixel (R58). -/
def wireByte (order : Order) (c : Color) (j : Nat) : Byte :=
  match j with
  | 0 => (wire order c).1
  | 1 => (wire order c).2.1
  | _ => (wire order c).2.2

/-- `bit(k) = W(p, j)[i]` with `p = k div 24`, `j = (k mod 24) div 8`, `i = 7 - (k mod 8)` (R58). -/
def frameBit (order : Order) (color : Nat → Color) (k : Nat) : Bool :=
  (wireByte order (color (k / 24)) (k % 24 / 8)).getLsbD (7 - k % 8)

/-- High time of an event in cycles: `TH(v)` for a pulse (R13, R101). -/
def Event.highCycles : Event → Nat
  | .pulse true => Config.th1
  | .pulse false => Config.th0
  | .gap => 0
  | .latch => 0

/-- Low time an event stands for at least, in cycles: `TL(v)` after a pulse, `T_RESET` for a latch (R13, R101,
R104); a `Gap` is extra low time below `T_RESET`. -/
def Event.minLowCycles : Event → Nat
  | .pulse true => Config.tl1
  | .pulse false => Config.tl0
  | .gap => 0
  | .latch => Config.tReset

/-- Total high time of a stretch of the trace, in cycles (R103, R271). -/
def highCycles (t : List Event) : Nat := (t.map Event.highCycles).sum

/-- The number of "1" bits in a stretch of the trace (R271 `ones`). -/
def oneBits (t : List Event) : Nat := t.count (.pulse true)

/-- The number of 1 bits of a byte (R103 `popcount`). -/
def popcount (v : Byte) : Nat :=
  ((List.range 8).map fun i => (v.getLsbD i).toNat).sum

end Sys2Proof.Machine
end

