-- ==== Sys2Proof/Machine/Receiver.lean ====
section
/-! DEFINITION. The receiver view (`20_memory.md` rules R59 to R62): what the LED chain makes of the trace. `none` is
"unspecified": a claim that needs the color there cannot be proved (R62). -/

namespace Sys2Proof.Machine

/-- The cut of a trace: the latched segments, oldest first, and the pending one, bits oldest first (R61). -/
structure Segments where
  latched : List (List Bool)
  pending : List Bool
deriving DecidableEq, Repr

/-- One event: a pulse is a bit (R59), a gap is dropped (R60), a latch ends the segment (R61). -/
def Segments.push (g : Segments) : Event → Segments
  | .pulse v => { g with pending := g.pending ++ [v] }
  | .gap => g
  | .latch => { latched := g.latched ++ [g.pending], pending := [] }

/-- `Segments(TRACE)` (R61). -/
def segments (t : List Event) : Segments := t.foldl Segments.push ⟨[], []⟩

/-- A byte from bits, most-significant first (R55, R61). -/
def byteOfBits (l : List Bool) : Byte :=
  l.foldl (fun b v => (b <<< 1) ||| (BitVec.ofBool v).setWidth 8) 0

/-- The color whose bytes in wire order are `w0 w1 w2` (R56, R61). -/
def unwire (order : Order) (w0 w1 w2 : Byte) : Color :=
  match order with
  | .grb => ⟨w1, w0, w2⟩
  | .rgb => ⟨w0, w1, w2⟩

/-- What LED `q` displays after a latched segment: bits `24 q .. 24 q + 23`, for `q < min(16, n div 24)` (R61); a LED
that got fewer than 24 bits is unspecified (R62 a, b). -/
def shown (order : Order) (seg : List Bool) (q : Nat) : Option Color :=
  if q < 16 ∧ 24 * (q + 1) ≤ seg.length then
    some (unwire order (byteOfBits ((seg.drop (24 * q)).take 8))
      (byteOfBits ((seg.drop (24 * q + 8)).take 8))
      (byteOfBits ((seg.drop (24 * q + 16)).take 8)))
  else none

/-- LED `q` after one more latched segment: an empty one changes nothing (R62 e). -/
def ledStep (order : Order) (q : Nat) (was : Option Color) (seg : List Bool) : Option Color :=
  if seg = [] then was else shown order seg q

/-- LED `q` after the whole trace; unspecified before the first latch (R62 d, R252). -/
def ledAfter (order : Order) (t : List Event) (q : Nat) : Option Color :=
  (segments t).latched.foldl (ledStep order q) none

end Sys2Proof.Machine
end

