-- ==== Sys2Proof/Safety.lean ====
section
/-! DEFINITION. What counts as a launch state, a resting state, a good end and a safe trace, in the spec's own terms; and
the states a run reaches. -/

namespace Sys2Proof.Machine

/-- Every entry of the buffer is in the Encoder's domain (R172, R255 item 2). -/
def BufferLegal (b : PixelBuffer) : Prop := ∀ p : BitVec 4, pixelLegal b p = true

/-- A launch state: the reset state with the host's launch inputs, the program, the buffer, the build's table and
order, the host operations to come (R250, R26). -/
def Launch (s : State) : Prop :=
  s = { State.reset with
    prog := s.prog, buf := s.buf, gamma := s.gamma, order := s.order, sched := s.sched }

/-- The launch premises of R255: the line low, a legal buffer, a nonzero seed (U4). -/
def LaunchOk (s : State) : Prop := s.line = false ∧ BufferLegal s.buf ∧ s.rng ≠ 0

/-- What holds between any two steps: the line is low (R20), the working registers are at their idle values (R21,
R22), `PIX` is at most 16 (R23) and at 0 or 16 unless a frame has faulted (R154, R155), interrupts are off under a
hold (R226), `CP` is in `PROG` or at its end (R26, R258), and the fault record tells the `CP` and `PIX` the block
stopped at (R221, R223). -/
structure Resting (s : State) : Prop where
  line_low : s.line = false
  sr_zero : s.sr = 0
  bc_zero : s.bc = 0
  pix_le : s.pix.toNat ≤ 16
  pix_rest : s.fault = none → s.pix = 0 ∨ s.pix = 16
  hold_masks : s.ihold = true → s.ie = false
  cp_le : s.cp ≤ s.prog.length
  fault_here : ∀ r, s.fault = some r → r.cp = s.cp ∧ r.pix = s.pix

/-- A run has ended well: `CP = length(PROG)`, no fault, the holds balanced (R258). -/
def GoodEnd (s : State) : Prop := s.cp = s.prog.length ∧ s.fault = none ∧ s.ihold = false

/-- Every latched segment is one whole frame or empty (R62, R63, R265): only then are the displayed colors all
specified. -/
def WholeFrames (t : List Event) : Prop :=
  ∀ seg ∈ (segments t).latched, seg = [] ∨ seg.length = Config.frameBits

/-- The states a run from a launch state reaches. -/
inductive Reachable : State → Prop where
  | launch {s : State} : Launch s → Reachable s
  | step {s t : State} : Reachable s → step s = .next t → Reachable t

end Sys2Proof.Machine
end

