-- ==== Sys2Proof/Certificates/Slice0/Obligations.lean ====
section
/-! DEFINITION. The statements for the provers. Each docstring names the rule of spec/ it formalises. A statement of what a
command does gives the WHOLE next state as an update of the old one, so it is the command's frame as well: every field
not named in the update is unchanged. The block has no byte memory and no store (R33, R50); the two tables a command
could touch, `gamma` and `buf`, are fields like the others. -/

open Sys2Proof Sys2Proof.Machine

/-! ## Encoding -/

/-- R82, R83: no bit of an encoding is dropped, for every command at every operand value. -/
def Obligations.DecodeInvertsEncode : Prop := ∀ i : Instr, decode (encode i) = .ok i

/-- R83: a word that matches a row of R82 is that row's command, the one with exactly this word; every other word is
rejected by name. The rows are those of `WellFormed.lean`, which the decoder does not use. -/
def Obligations.DecodeAcceptsExactlyTheRows : Prop :=
  ∀ w : CW,
    (wordWellFormed w = true → ∃ i, decode w = .ok i ∧ encode i = w) ∧
    (wordWellFormed w = false → ∃ e, decode w = .error e)

/-- R82: "the ten patterns are pairwise disjoint". -/
def Obligations.CommandRowsAreDisjoint : Prop :=
  commandRows.Pairwise fun a b =>
    ∀ w : CW, ¬ (a.matchesWord w = true ∧ b.matchesWord w = true)

/-- R80: a stored word is four bytes, `op` first, and the decoder of bytes reads it so, leaving the rest. -/
def Obligations.StoredWordDecodesBigEndian : Prop :=
  ∀ (w : CW) (rest : List Byte),
    wordBytes w = [w.extractLsb' 24 8, w.extractLsb' 16 8, w.extractLsb' 8 8, w.extractLsb' 0 8] ∧
    decodeBytes (wordBytes w ++ rest)
      = match decode w with
        | .ok i => .ok (i, rest)
        | .error e => .error e

/-- R82, R85 and section 2.8 of 95_test_vectors.md: words written out from the encoding decode to the command they stand
for, and reserved ones to none. A sanity statement. -/
def Obligations.SampleWordsDecode : Prop :=
  decode 0x01000001#32 = .ok (.sendbit true) ∧
  decode 0x020000A5#32 = .ok (.sendbyte 0xA5) ∧
  decode 0x03123456#32 = .ok (.wrcolor 0x12 0x34 0x56) ∧
  decode 0x04006400#32 = .ok (.wrhue 100) ∧
  decode 0x05006404#32 = .ok (.wrhuebr 100 4) ∧
  decode 0x06000000#32 = .ok .latch ∧
  decode 0x07000000#32 = .ok .ihold ∧
  decode 0x08000000#32 = .ok .irel ∧
  decode 0x1000640F#32 = .ok (.framer 15 100) ∧
  decode 0x11000000#32 = .ok .framea ∧
  decode 0x01000002#32 = .error (.mustBeZero 0x01) ∧
  decode 0x10006410#32 = .error (.mustBeZero 0x10) ∧
  decode 0x09000000#32 = .error (.unknownOp 0x09)

/-- R82, R86, R87: the thirteen mnemonics are spelled as the rules spell them and read back; the mnemonic of every command,
with its operands in the source's order, assembles to that command in either variant; `WROFF`, `RENDER` and `SHOW` expand
as R87 says; and a line of text, a mnemonic, its operands below 256, each in decimal or in hexadecimal with the prefix
`0x`, separated by commas, and a comment or none, is assembled as that mnemonic with those operands, with any blanks before
the mnemonic, after it and on both sides of every operand, at least one between mnemonic and operands; a line of blanks or
comment alone stands for no command. Digits are those of `Nat.toDigits`, so the letters small; that a blank is a space or a
tab and may stand there, and that an empty line is no command, is the model's choice (log 18). -/
def Obligations.AssemblerReadsEveryCommand : Prop :=
  (keywords.map keywordText
      = ["SENDBIT", "SENDBYTE", "WRCOLOR", "WRHUE", "WRHUEBR", "LATCH", "IHOLD", "IREL", "FRAMER", "FRAMEA",
          "WROFF", "RENDER", "SHOW"].map String.toList ∧
    ∀ k, readKeyword (keywordText k) = some k) ∧
  (∀ (v : Variant) (i : Instr), assembleOp v (keywordOf i) (operandsOf i) = some [i]) ∧
  (∀ v : Variant, assembleOp v .wroff [] = some [.wrcolor 0 0 0]) ∧
  (∀ (pos : BitVec 4) (hue : Byte),
    assembleOp .reactive .render [pos.toNat, hue.toNat] = some [.framer pos hue] ∧
    assembleOp .reactive .showFrame [pos.toNat, hue.toNat] = some [.framer pos hue, .latch]) ∧
  assembleOp .ambient .render [] = some [.framea] ∧
  assembleOp .ambient .showFrame [] = some [.framea, .latch] ∧
  (∀ (v : Variant) (k : Keyword) (ops : List Nat) (fields : List Line) (lead gap tail : Line),
    (∀ n ∈ ops, n < 256) →
    List.Forall₂ (fun n f => ∃ l t r : Line, f = l ++ t ++ r ∧ (l ++ r).all isBlank = true ∧
      (t = Nat.toDigits 10 n ∨ t = '0' :: 'x' :: Nat.toDigits 16 n)) ops fields →
    (lead ++ gap).all isBlank = true → (ops = [] ∨ gap ≠ []) →
    (tail = [] ∨ ∃ comment, tail = ';' :: comment) →
    assembleLine v (lead ++ keywordText k ++ gap ++ List.intercalate [','] fields ++ tail)
      = assembleOp v k ops) ∧
  (∀ (v : Variant) (blanks tail : Line), blanks.all isBlank = true →
    (tail = [] ∨ ∃ comment, tail = ';' :: comment) → assembleLine v (blanks ++ tail) = some [])

/-! ## The step -/

/-- R13, R26, R88: when no fault is set, no host operation is due and the word at `CP` decodes to a command, the step
is the execution of that command, with nothing around it. -/
def Obligations.StepRunsDecodedCommand : Prop :=
  ∀ (s : State) (w : CW) (i : Instr),
    s.fault = none → s.hostDue = none → s.prog[s.cp]? = some w → decode w = .ok i →
    step s = exec i s

/-- The model's interface (log 8): a word placed for the next fetch is the one the next step runs, from any state, be it a
command's word or a reserved one. -/
def Obligations.PlacedWordRunsNext : Prop :=
  ∀ (s : State) (w : CW),
    step (s.withFetchWord 32 w.toNat)
      = match decode w with
        | .ok i => exec i (s.withFetchWord 32 w.toNat)
        | .error _ => .next
          { s.withFetchWord 32 w.toNat with fault := some ⟨.reservedCommand, s.cp, s.pix, w⟩ }

/-- R85: a word that matches no row of R82 raises `ReservedCommand` and changes nothing else; the record holds the
whole word (R223). -/
def Obligations.ReservedWordFaults : Prop :=
  ∀ (s : State) (w : CW),
    s.fault = none → s.hostDue = none → s.prog[s.cp]? = some w → wordWellFormed w = false →
    step s = .next { s with fault := some ⟨.reservedCommand, s.cp, s.pix, w⟩ }

/-- R28, R221, R230: once `FAULT` is set the block executes nothing more: no step has a next state, and no command. That
the stop is the host fault `stopped` is log 6. -/
def Obligations.StoppedBlockExecutesNothing : Prop :=
  ∀ (s : State) (r : FaultRecord), s.fault = some r →
    step s = .fault (.stopped r) ∧ ∀ i, exec i s = .fault (.stopped r)

/-- R258: with no fault and no command left there is nothing to execute. That the answer is the refusal `endOfProgram`,
and that host operations still due come before it, are the model's choices (logs 7 and 9). -/
def Obligations.RunOverExecutesNothing : Prop :=
  ∀ s : State, s.fault = none → s.hostDue = none → s.cp = s.prog.length →
    step s = .refused .endOfProgram

/-- R170, R29: a host operation that stands before the command at `CP`, with no hold in force, is performed before it, be
there a command at `CP` or not; the host's plain writes put the two bytes at their position, and the bit into `IE`, and
nothing else. The schedule is the model's own field (log 9), and that an operation due at `CP = length(PROG)` is still
performed is the model's choice (logs 7 and 9). -/
def Obligations.HostOperationRunsBetweenCommands : Prop :=
  (∀ (s : State) (n : Nat) (op : HostOp) (rest : List (Nat × HostOp)),
    s.fault = none → s.ihold = false → s.sched = (n, op) :: rest → n ≤ s.cp →
    step s = hostDo op { s with sched := rest }) ∧
  (∀ (s : State) (p : BitVec 4) (hue bri : Byte),
    ∃ b, hostDo (.writePix p hue bri) s = .next { s with buf := b } ∧
      ∀ q, bufHue b q = (if q = p then hue else bufHue s.buf q) ∧
        bufBri b q = (if q = p then bri else bufBri s.buf q)) ∧
  (∀ (s : State) (on : Bool), hostDo (.writeIE on) s = .next { s with ie := on })

/-- R29, R226: "while `IHOLD = 1` the only enabled step is the block's next step": no step taken under a hold changes
what belongs to the host, and the step does not depend on what the host has yet to do. -/
def Obligations.HoldKeepsTheHostOut : Prop :=
  ∀ s t : State, s.ihold = true → step s = .next t →
    t.buf = s.buf ∧ t.rng = s.rng ∧ t.rngOut = s.rngOut ∧ t.anim = s.anim ∧ t.sched = s.sched ∧
    ∀ l, step { s with sched := l } = .next { t with sched := l }

/-! ## Reset -/

/-- R250: the values the spec gives for reset. (The values the model chose, logs 1 to 4 and 20, are not
here.) -/
def Obligations.ResetLeavesTheSpecValues : Prop :=
  let s := State.reset
  s.line = false ∧ s.sr = 0 ∧ s.bc = 0 ∧ s.pix = 0 ∧ s.ihold = false ∧ s.ie = true ∧ s.cp = 0 ∧
  s.trace = [] ∧ s.fault = none ∧ s.rng = 0xACE1#16 ∧ s.anim.state = 0 ∧
  s.gammaRead 0 = 0

/-- The resting invariant holds in every launch state, the reset state among them. -/
def Obligations.LaunchIsResting : Prop :=
  Resting State.reset ∧ ∀ s : State, Launch s → Resting s

/-! ## The transmitter -/

/-- R100: under a hold `SENDBIT v` appends one `Pulse(v)`, high for 3 cycles for a 0 and 7 for a 1, and leaves the line
low; outside one it raises `Unprotected(v)` before the line moves. -/
def Obligations.SendbitSendsOneCell : Prop :=
  (∀ (s : State) (v : Bool), s.fault = none →
    (s.ihold = true → exec (.sendbit v) s
      = .next { s with line := false, trace := s.trace ++ [.pulse v], cp := s.cp + 1 }) ∧
    (s.ihold = false → exec (.sendbit v) s
      = .next { s with fault := some ⟨.unprotected, s.cp, s.pix, if v then 1 else 0⟩ })) ∧
  (∀ v : Bool, (Event.pulse v).highCycles = if v then 7 else 3)

/-- R103 (and R102): under a hold `SENDBYTE value` appends exactly the eight pulses of the byte, most-significant bit
first, and leaves `SR`, `BC` and the line 0; the high times are `3 + 4 value[i]` cycles and the total is
`24 + 4 popcount(value)`. -/
def Obligations.SendbyteFollowsTheByteLaw : Prop :=
  (∀ (s : State) (v : Byte), s.fault = none → s.ihold = true →
    exec (.sendbyte v) s = .next
      { s with
        line := false, sr := 0, bc := 0, cp := s.cp + 1
        trace := s.trace ++ [7, 6, 5, 4, 3, 2, 1, 0].map (fun i => .pulse (v.getLsbD i)) }) ∧
  (∀ v : Byte,
    ([7, 6, 5, 4, 3, 2, 1, 0].map fun i => (Event.pulse (v.getLsbD i)).highCycles)
      = [7, 6, 5, 4, 3, 2, 1, 0].map (fun i => 3 + 4 * (v.getLsbD i).toNat) ∧
    highCycles ([7, 6, 5, 4, 3, 2, 1, 0].map fun i => .pulse (v.getLsbD i))
      = 24 + 4 * popcount v)

/-- R104: `LATCH` appends one `Latch`, which stands for 480 cycles of low time at least, and changes nothing else but
`CP`, with and without a hold. -/
def Obligations.LatchEmitsOneLatch : Prop :=
  (∀ s : State, s.fault = none →
    exec .latch s = .next { s with trace := s.trace ++ [.latch], cp := s.cp + 1 }) ∧
  Event.latch.minLowCycles = 480

/-- R224: each transmitting command fetched while `IHOLD = 0` records `Unprotected` with its first operand before the
line moves, and changes nothing else; inside the frame commands the fault cannot arise. -/
def Obligations.UnprotectedCommandFaults : Prop :=
  (∀ s : State, s.fault = none → s.ihold = false →
    (∀ v, exec (.sendbit v) s
      = .next { s with fault := some ⟨.unprotected, s.cp, s.pix, if v then 1 else 0⟩ }) ∧
    (∀ v, exec (.sendbyte v) s
      = .next { s with fault := some ⟨.unprotected, s.cp, s.pix, v.setWidth 32⟩ }) ∧
    (∀ r g b, exec (.wrcolor r g b) s
      = .next { s with fault := some ⟨.unprotected, s.cp, s.pix, r.setWidth 32⟩ }) ∧
    (∀ hue, exec (.wrhue hue) s
      = .next { s with fault := some ⟨.unprotected, s.cp, s.pix, hue.setWidth 32⟩ }) ∧
    (∀ hue bri, exec (.wrhuebr hue bri) s
      = .next { s with fault := some ⟨.unprotected, s.cp, s.pix, hue.setWidth 32⟩ })) ∧
  (∀ (s t : State) (r : FaultRecord) (i : Instr),
    (∃ pos hue, i = .framer pos hue) ∨ i = .framea →
    exec i s = .next t → t.fault = some r → r.code ≠ .unprotected)

/-! ## The color encoder -/

/-- R120: under a hold `WRCOLOR r, g, b` sends the three bytes as given, green, red, blue or red, green, blue as `ORDER`
says (the names of the orders are the spec's reading, D10, log 16); outside one it raises `Unprotected(r)` before anything
is sent. -/
def Obligations.WrcolorSendsTheBytesInWireOrder : Prop :=
  ∀ (s : State) (r g b : Byte), s.fault = none →
    (s.ihold = true → exec (.wrcolor r g b) s = .next
      { s with
        line := false, sr := 0, bc := 0, cp := s.cp + 1
        trace := s.trace ++
          match s.order with
          | .grb => byteEvents g ++ byteEvents r ++ byteEvents b
          | .rgb => byteEvents r ++ byteEvents g ++ byteEvents b }) ∧
    (s.ihold = false → exec (.wrcolor r g b) s
      = .next { s with fault := some ⟨.unprotected, s.cp, s.pix, r.setWidth 32⟩ })

/-- R124 (with R122, R123, R130): under a hold `WRHUE hue` sends the triple of the phase, ramps of 4 per step; a hue of
192 or more raises `HueOutOfRange(hue)`, no hold raises `Unprotected(hue)` first; both before anything is sent. Which
channel is which is the spec's decision D9 (log 16). -/
def Obligations.WrhueSendsTheHuePixel : Prop :=
  ∀ (s : State) (hue up down : Byte), s.fault = none →
    up.toNat = 4 * (hue.toNat % 64) → down.toNat + up.toNat = 252 →
    (s.ihold = true → hue.toNat < 192 → exec (.wrhue hue) s = .next
      { s with
        line := false, sr := 0, bc := 0, cp := s.cp + 1
        trace := s.trace ++ colorEvents s.order
          (if hue.toNat / 64 = 0 then ⟨down, up, 0⟩
           else if hue.toNat / 64 = 1 then ⟨0, down, up⟩
           else ⟨up, 0, down⟩) }) ∧
    (s.ihold = true → 192 ≤ hue.toNat → exec (.wrhue hue) s
      = .next { s with fault := some ⟨.hueOutOfRange, s.cp, s.pix, hue.setWidth 32⟩ }) ∧
    (s.ihold = false → exec (.wrhue hue) s
      = .next { s with fault := some ⟨.unprotected, s.cp, s.pix, hue.setWidth 32⟩ })

/-- R127 (with R126): under a hold `WRHUEBR hue, bri` sends the gamma entries of the two ramps shifted right by
`6 - bri`, placed by phase; its faults in order are no hold, hue, brightness, all before anything is sent. -/
def Obligations.WrhuebrSendsTheScaledPixel : Prop :=
  ∀ (s : State) (hue bri : Byte) (i j : Fin 64), s.fault = none →
    (s.ihold = true → hue.toNat < 192 → bri.toNat ≤ 6 →
      i.val = (hue.toNat % 64) >>> (6 - bri.toNat) →
      j.val = (63 - hue.toNat % 64) >>> (6 - bri.toNat) →
      exec (.wrhuebr hue bri) s = .next
        { s with
          line := false, sr := 0, bc := 0, cp := s.cp + 1
          trace := s.trace ++ colorEvents s.order
            (if hue.toNat / 64 = 0 then ⟨s.gammaRead j, s.gammaRead i, 0⟩
             else if hue.toNat / 64 = 1 then ⟨0, s.gammaRead j, s.gammaRead i⟩
             else ⟨s.gammaRead i, 0, s.gammaRead j⟩) }) ∧
    (s.ihold = true → hue.toNat < 192 → 6 < bri.toNat → exec (.wrhuebr hue bri) s
      = .next { s with fault := some ⟨.brightnessOutOfRange, s.cp, s.pix, bri.setWidth 32⟩ }) ∧
    (s.ihold = true → 192 ≤ hue.toNat → exec (.wrhuebr hue bri) s
      = .next { s with fault := some ⟨.hueOutOfRange, s.cp, s.pix, hue.setWidth 32⟩ }) ∧
    (s.ihold = false → exec (.wrhuebr hue bri) s
      = .next { s with fault := some ⟨.unprotected, s.cp, s.pix, hue.setWidth 32⟩ })

/-- R52: a gamma read of entry `i` gives the table's byte, and 0 for entry 0, whatever the machine has done since. -/
def Obligations.GammaReadNeverChanges : Prop :=
  (∀ (s : State) (i : Fin 64), s.gammaRead i = if i = 0 then 0 else s.gamma[i.val]) ∧
  (∀ (s t : State) (i : Fin 64), step s = .next t → t.gammaRead i = s.gammaRead i)

/-- R125, items 1, 2 and 4: what any `WRHUE` of a legal hue sends is a triple whose channels are multiples of 4 in
0..252 that sum to 252, at least one of them 0, and with two 0 exactly at the first and last step of a phase. -/
def Obligations.WrhuePixelsLieOnTheWheel : Prop :=
  ∀ (s : State) (hue : Byte), s.fault = none → s.ihold = true → hue.toNat < 192 →
    ∃ (t : State) (r g b : Byte), exec (.wrhue hue) s = .next t ∧
      t.trace = s.trace ++ colorEvents s.order ⟨r, g, b⟩ ∧
      r.toNat + g.toNat + b.toNat = 252 ∧
      4 ∣ r.toNat ∧ 4 ∣ g.toNat ∧ 4 ∣ b.toNat ∧
      (r = 0 ∨ g = 0 ∨ b = 0) ∧
      ((hue.toNat % 64 = 0 ∨ hue.toNat % 64 = 63) ↔
        ((r = 0 ∧ g = 0) ∨ (g = 0 ∧ b = 0) ∨ (r = 0 ∧ b = 0)))

/-- R125, item 3: the wheel is a closed loop: hues 63 and 64, 127 and 128, 191 and 0 do the same thing in every state
under a hold. -/
def Obligations.HueWheelCloses : Prop :=
  ∀ s : State, s.ihold = true →
    exec (.wrhue 63) s = exec (.wrhue 64) s ∧
    exec (.wrhue 127) s = exec (.wrhue 128) s ∧
    exec (.wrhue 191) s = exec (.wrhue 0) s

/-- R128, item 1: at brightness 0 the pixel is off whatever the hue and whatever the gamma table. -/
def Obligations.BrightnessZeroIsOff : Prop :=
  ∀ (s : State) (hue : Byte), s.ihold = true → hue.toNat < 192 →
    exec (.wrhuebr hue 0) s = exec (.wrcolor 0 0 0) s

/-- R128, items 3 and 6: the two indexes sum to `63 >> (6 - bri)`, and the pixel depends on the hue only through its
phase and the rising index. -/
def Obligations.ScaledPixelDependsOnItsIndex : Prop :=
  (∀ hue bri : Byte,
    (gammaIndex (hueStep hue) bri).val + (gammaIndex (hueFall hue) bri).val
      = 63 >>> (6 - bri.toNat)) ∧
  (∀ (s : State) (h k bri : Byte), s.ihold = true → h.toNat < 192 → k.toNat < 192 →
    h.toNat / 64 = k.toNat / 64 →
    (h.toNat % 64) >>> (6 - bri.toNat) = (k.toNat % 64) >>> (6 - bri.toNat) →
    exec (.wrhuebr h bri) s = exec (.wrhuebr k bri) s)

/-- R121: the wire order only permutes the bytes: `WRCOLOR r, g, b` under GRB does what `WRCOLOR g, r, b` does under
RGB. That these are the two orders is the spec's reading, from general knowledge (R32, D10, log 16). -/
def Obligations.WireOrderPermutesTheBytes : Prop :=
  ∀ (s t : State) (r g b : Byte), s.ihold = true →
    exec (.wrcolor r g b) { s with order := .grb } = .next t →
    exec (.wrcolor g r b) { s with order := .rgb } = .next { t with order := .rgb }

/-! ## The hold -/

/-- R150: `IHOLD` saves `IE`, clears it and sets the flag; inside a hold it raises `HoldMisuse(1)`. -/
def Obligations.IholdBeginsTheHold : Prop :=
  ∀ s : State, s.fault = none →
    (s.ihold = false → exec .ihold s
      = .next { s with isave := s.ie, ie := false, ihold := true, cp := s.cp + 1 }) ∧
    (s.ihold = true → exec .ihold s
      = .next { s with fault := some ⟨.holdMisuse, s.cp, s.pix, 1⟩ })

/-- R151: `IREL` puts `IE` back and clears the flag; outside a hold it raises `HoldMisuse(0)`. -/
def Obligations.IrelEndsTheHold : Prop :=
  ∀ s : State, s.fault = none →
    (s.ihold = true → exec .irel s
      = .next { s with ie := s.isave, ihold := false, cp := s.cp + 1 }) ∧
    (s.ihold = false → exec .irel s
      = .next { s with fault := some ⟨.holdMisuse, s.cp, s.pix, 0⟩ })

/-- R25, R150, R151: a hold and its release put the host's interrupt enable back as it was, on or off. -/
def Obligations.ReleaseRestoresTheInterruptEnable : Prop :=
  ∀ s : State, s.fault = none → s.ihold = false →
    ∃ t, exec .ihold s = .next t ∧ t.ie = false ∧ t.ihold = true ∧
      exec .irel t = .next { s with isave := s.ie, cp := s.cp + 2 }

/-! ## Frames -/

/-- R154, R157: outside a hold `FRAMER pos, hue` with a legal hue sends sixteen pixels in ascending order, the one at
`pos` of the hue and the others off, under its own hold, and leaves `IHOLD = 0`, `IE` as before, `PIX = 16`,
`SR = BC = LINE = 0`; inside a hold it raises `HoldMisuse(1)`. -/
def Obligations.FramerSendsOneFrame : Prop :=
  ∀ (s : State) (pos : BitVec 4) (hue : Byte), s.fault = none →
    (s.ihold = false → hue.toNat < 192 → exec (.framer pos hue) s = .next
      { s with
        line := false, sr := 0, bc := 0, pix := 16, isave := s.ie, cp := s.cp + 1
        trace := s.trace ++ (List.range 16).flatMap fun p =>
          colorEvents s.order (if p = pos.toNat then hueColor hue else ⟨0, 0, 0⟩) }) ∧
    (s.ihold = true → exec (.framer pos hue) s
      = .next { s with fault := some ⟨.holdMisuse, s.cp, s.pix, 1⟩ })

/-- R155, R157: outside a hold `FRAMEA` on a legal buffer sends the sixteen pixels of the buffer in ascending order, each
the triple WRHUEBR computes, under its own hold; inside a hold it raises `HoldMisuse(1)`. -/
def Obligations.FrameaSendsTheBuffer : Prop :=
  ∀ s : State, s.fault = none →
    (s.ihold = false → (∀ p : BitVec 4, (bufHue s.buf p).toNat < 192 ∧ (bufBri s.buf p).toNat ≤ 6) →
      exec .framea s = .next
        { s with
          line := false, sr := 0, bc := 0, pix := 16, isave := s.ie, cp := s.cp + 1
          trace := s.trace ++ (List.range 16).flatMap fun p =>
            colorEvents s.order
              (hueBrColor s (bufHue s.buf (BitVec.ofNat 4 p)) (bufBri s.buf (BitVec.ofNat 4 p))) }) ∧
    (s.ihold = true → exec .framea s
      = .next { s with fault := some ⟨.holdMisuse, s.cp, s.pix, 1⟩ })

/-- R154, R160: with an illegal hue `FRAMER` sends the `pos` off pixels before the active one and freezes there: the hold
stays, `IE = 0`, `PIX = pos`, `CP` stays, and `FAULT` records it. -/
def Obligations.FramerFreezesAtTheActivePixel : Prop :=
  ∀ (s : State) (pos : BitVec 4) (hue : Byte), Resting s → s.fault = none → s.ihold = false →
    192 ≤ hue.toNat →
    exec (.framer pos hue) s = .next
      { s with
        pix := pos.setWidth 5, isave := s.ie, ie := false, ihold := true
        trace := s.trace ++ (List.range pos.toNat).flatMap fun _ => colorEvents s.order ⟨0, 0, 0⟩
        fault := some ⟨.hueOutOfRange, s.cp, pos.setWidth 5, hue.setWidth 32⟩ }

/-- R155, R160, R229: `FRAMEA` freezes at the lowest position whose entry is illegal, the hue checked before the
brightness, after the pixels before it have gone out. -/
def Obligations.FrameaFreezesAtTheFirstBadPixel : Prop :=
  ∀ (s : State) (p : BitVec 4), Resting s → s.fault = none → s.ihold = false →
    (∀ q : BitVec 4, q < p → (bufHue s.buf q).toNat < 192 ∧ (bufBri s.buf q).toNat ≤ 6) →
    (192 ≤ (bufHue s.buf p).toNat ∨ 6 < (bufBri s.buf p).toNat) →
    exec .framea s = .next
      { s with
        pix := p.setWidth 5, isave := s.ie, ie := false, ihold := true
        trace := s.trace ++ (List.range p.toNat).flatMap fun q =>
          colorEvents s.order
            (hueBrColor s (bufHue s.buf (BitVec.ofNat 4 q)) (bufBri s.buf (BitVec.ofNat 4 q)))
        fault := some (
          if 192 ≤ (bufHue s.buf p).toNat then
            ⟨.hueOutOfRange, s.cp, p.setWidth 5, (bufHue s.buf p).setWidth 32⟩
          else ⟨.brightnessOutOfRange, s.cp, p.setWidth 5, (bufBri s.buf p).setWidth 32⟩) }

/-- R58: the `k`-th of the 384 bit cells of a complete frame is `W(p, j)[i]` with `p = k div 24`,
`j = (k mod 24) div 8`, `i = 7 - (k mod 8)`, for both frame commands. -/
def Obligations.FrameBitsFollowTheFormula : Prop :=
  ∀ s : State, s.fault = none → s.ihold = false →
    (∀ (pos : BitVec 4) (hue : Byte), hue.toNat < 192 →
      ∃ t, exec (.framer pos hue) s = .next t ∧ t.trace.length = s.trace.length + 384 ∧
        ∀ k, k < 384 → t.trace[s.trace.length + k]?
          = some (.pulse (frameBit s.order (reactiveColor pos hue) k))) ∧
    ((∀ p, pixelLegal s.buf p = true) →
      ∃ t, exec .framea s = .next t ∧ t.trace.length = s.trace.length + 384 ∧
        ∀ k, k < 384 → t.trace[s.trace.length + k]?
          = some (.pulse (frameBit s.order (ambientColor s) k)))

/-- R271: the total high time of a complete frame is `3·384 + 4·ones` cycles, `ones` the number of its "1" bits, between
1152 and 2688 cycles; for `FRAMER` the ones are those of the lit pixel's three bytes. -/
def Obligations.FrameHighTimeCountsTheOnes : Prop :=
  ∀ s : State, s.fault = none → s.ihold = false →
    (∀ (pos : BitVec 4) (hue : Byte), hue.toNat < 192 →
      ∃ t l, exec (.framer pos hue) s = .next t ∧ t.trace = s.trace ++ l ∧
        highCycles l = 3 * 384 + 4 * oneBits l ∧ 1152 ≤ highCycles l ∧ highCycles l ≤ 2688 ∧
        oneBits l = popcount (hueColor hue).r + popcount (hueColor hue).g + popcount (hueColor hue).b) ∧
    ((∀ p, pixelLegal s.buf p = true) →
      ∃ t l, exec .framea s = .next t ∧ t.trace = s.trace ++ l ∧
        highCycles l = 3 * 384 + 4 * oneBits l ∧ 1152 ≤ highCycles l ∧ highCycles l ≤ 2688)

/-- R61, R157, R159: a frame followed by `LATCH`, sent with nothing pending on the line, is what the LEDs display: LED `q`
shows exactly the color of position `q`, for both frame commands and in either wire order. The cascade of the LEDs is the
spec's receiver view, from general knowledge (D22, log 15). -/
def Obligations.LatchedFrameIsDisplayed : Prop :=
  ∀ s : State, s.fault = none → s.ihold = false → (segments s.trace).pending = [] →
    (∀ (pos : BitVec 4) (hue : Byte), hue.toNat < 192 →
      ∃ t u, exec (.framer pos hue) s = .next t ∧ exec .latch t = .next u ∧
        ∀ q, q < 16 → ledAfter s.order u.trace q = some (reactiveColor pos hue q)) ∧
    ((∀ p, pixelLegal s.buf p = true) →
      ∃ t u, exec .framea s = .next t ∧ exec .latch t = .next u ∧
        ∀ q, q < 16 → ledAfter s.order u.trace q = some (ambientColor s q))

/-- R159, R62 (c): of two frames with no `LATCH` between them the LEDs take the first and lose the second. -/
def Obligations.SecondFrameWithoutLatchIsLost : Prop :=
  ∀ (s : State) (p₁ p₂ : BitVec 4) (h₁ h₂ : Byte), s.fault = none → s.ihold = false →
    (segments s.trace).pending = [] → h₁.toNat < 192 → h₂.toNat < 192 →
    ∃ t u v, exec (.framer p₁ h₁) s = .next t ∧ exec (.framer p₂ h₂) t = .next u ∧
      exec .latch u = .next v ∧
      (segments v.trace).latched
        = (segments s.trace).latched ++ [(segments u.trace).pending] ∧
      (segments u.trace).pending.length = 768 ∧
      ∀ q, q < 16 → ledAfter s.order v.trace q = some (reactiveColor p₁ h₁ q)

/-- R60: a `Gap` anywhere in the trace changes nothing of the receiver view. -/
def Obligations.GapsCarryNothing : Prop :=
  ∀ (order : Order) (l m : List Event) (q : Nat),
    segments (l ++ .gap :: m) = segments (l ++ m) ∧
    ledAfter order (l ++ .gap :: m) q = ledAfter order (l ++ m) q

/-- R252, R62 (d): before the first `Latch` nothing is known of any LED, whatever has been sent; `none` is the receiver
view's "unspecified" (log 15). -/
def Obligations.LedsAreUnspecifiedBeforeALatch : Prop :=
  ∀ (order : Order) (t : List Event) (q : Nat), Event.latch ∉ t → ledAfter order t q = none

/-! ## Whole-machine rules -/

/-- R20 to R26, R221, R226: the resting invariant (Safety.lean) is kept by every step, the host's and the block's, a
faulting one included. -/
def Obligations.StepKeepsResting : Prop :=
  ∀ s t : State, Resting s → step s = .next t → Resting t

/-- R20, R226, R258: in every state a run from any launch state reaches, the line is low, interrupts are off under a
hold, and a run that has ended without a fault has its pixel position, shift register and bit count at rest. -/
def Obligations.ReachableStatesRest : Prop :=
  ∀ s : State, Reachable s → Resting s

/-- R267, R27: "Nothing can be taken back": every step leaves the trace so far at the head of the new one. -/
def Obligations.TraceOnlyGrows : Prop :=
  ∀ s t : State, step s = .next t → ∃ l, t.trace = s.trace ++ l

/-- R31, R32, R68: no step ever changes the gamma table or the wire order; a command's step leaves the program as it is,
and a host's step at most issues commands at `CP`, before those still to come (log 25). -/
def Obligations.ConfigurationNeverChanges : Prop :=
  ∀ s t : State, step s = .next t →
    t.gamma = s.gamma ∧ t.order = s.order ∧
    (s.hostDue = none → t.prog = s.prog) ∧
    ∃ issued, t.prog = s.prog.take s.cp ++ issued ++ s.prog.drop s.cp

/-- R30, R161: no command writes the host's buffer, generator, animation state or schedule, nor table, order or
program. -/
def Obligations.CommandsLeaveTheHostAlone : Prop :=
  ∀ (i : Instr) (s t : State), exec i s = .next t →
    t.buf = s.buf ∧ t.rng = s.rng ∧ t.rngOut = s.rngOut ∧ t.anim = s.anim ∧ t.sched = s.sched ∧
    t.gamma = s.gamma ∧ t.order = s.order ∧ t.prog = s.prog

/-- R24, R25, R29, R23: only `IHOLD`, `IREL` and the two frame commands touch the hold flag, the saved enable, the
interrupt enable and the pixel position. -/
def Obligations.OnlyHoldCommandsTouchInterrupts : Prop :=
  ∀ (i : Instr) (s t : State), exec i s = .next t →
    (match i with
      | .ihold | .irel | .framer _ _ | .framea => False
      | .sendbit _ | .sendbyte _ | .wrcolor _ _ _ | .wrhue _ | .wrhuebr _ _ | .latch => True) →
    t.ihold = s.ihold ∧ t.isave = s.isave ∧ t.ie = s.ie ∧ t.pix = s.pix

/-- R26, R28, R221: every command that completes does `cp <- cp + 1`; one that faults leaves `CP` where it is and records
it, with the `PIX` it stopped at. -/
def Obligations.CommandPointerMovesUnlessFaulted : Prop :=
  ∀ (i : Instr) (s t : State), exec i s = .next t →
    s.fault = none ∧
    ((t.fault = none ∧ t.cp = s.cp + 1) ∨
     (∃ r, t.fault = some r ∧ t.cp = s.cp ∧ r.cp = s.cp ∧ r.pix = t.pix))

/-- R158: every command terminates, with a next state whenever the block is not stopped, and if it completes it has
appended exactly 1, 8, 24, 24, 24, 0, 0, 0, 384 or 384 pulses and nothing else, but for the one `Latch` of `LATCH`. -/
def Obligations.BitCellsPerCommand : Prop :=
  ∀ (i : Instr) (s : State), s.fault = none →
    ∃ t, exec i s = .next t ∧
      (t.fault = none → ∃ bits : List Bool,
        t.trace = s.trace ++ bits.map Event.pulse ++ (if i = .latch then [.latch] else []) ∧
        bits.length = match i with
          | .sendbit _ => 1
          | .sendbyte _ => 8
          | .wrcolor _ _ _ => 24
          | .wrhue _ => 24
          | .wrhuebr _ _ => 24
          | .latch => 0
          | .ihold => 0
          | .irel => 0
          | .framer _ _ => 384
          | .framea => 384)

/-- R50: the gamma table is reached by `WRHUEBR` and `FRAMEA` alone and the Pixel Buffer by `FRAMEA` alone: every other
command does the same whatever they hold. -/
def Obligations.TablesAreReadOnlyByTheirCommands : Prop :=
  ∀ (i : Instr) (s t : State), exec i s = .next t → i ≠ .framea →
    (∀ b, exec i { s with buf := b } = .next { t with buf := b }) ∧
    ((∀ hue bri, i ≠ .wrhuebr hue bri) →
      ∀ g, exec i { s with gamma := g } = .next { t with gamma := g })

/-! ## The host's operations -/

/-- R173, R174, R175: `set` writes the hue and brightness 6 at its position and nothing else; `clear` zeroes every
brightness and keeps the hues; `fill` writes every hue and keeps the brightnesses. -/
def Obligations.SetClearFillWriteTheBuffer : Prop :=
  ∀ s : State,
    (∀ p hue, ∃ t, hostDo (.set p hue) s = .next { s with buf := t } ∧
      ∀ q, bufHue t q = (if q = p then hue else bufHue s.buf q) ∧
        bufBri t q = (if q = p then 6 else bufBri s.buf q)) ∧
    (∃ t, hostDo .clear s = .next { s with buf := t } ∧
      ∀ q, bufHue t q = bufHue s.buf q ∧ bufBri t q = 0) ∧
    (∀ hue, ∃ t, hostDo (.fill hue) s = .next { s with buf := t } ∧
      ∀ q, bufHue t q = hue ∧ bufBri t q = bufBri s.buf q)

/-- R176: `fadeIn()` raises every brightness below 6 by one; applied 6 times from 0 it reaches 6, and stays there on a
7th call; it keeps the hues. -/
def Obligations.FadeInReachesTheCeiling : Prop :=
  ∀ (s : State) (p : BitVec 4),
    (∃ t, hostDo .fadeIn s = .next { s with buf := t } ∧ bufHue t p = bufHue s.buf p ∧
      (bufBri t p).toNat
        = if (bufBri s.buf p).toNat < 6 then (bufBri s.buf p).toNat + 1 else (bufBri s.buf p).toNat) ∧
    (bufBri s.buf p = 0 →
      bufBri (bufFadeIn^[6] s.buf) p = 6 ∧ bufBri (bufFadeIn^[7] s.buf) p = 6)

/-- R177: `fadeOut()` lowers every brightness above 0 by one; applied 6 times from 6 it reaches 0 and stays there; it
keeps the hues. -/
def Obligations.FadeOutReachesTheFloor : Prop :=
  ∀ (s : State) (p : BitVec 4),
    (∃ t, hostDo .fadeOut s = .next { s with buf := t } ∧ bufHue t p = bufHue s.buf p ∧
      (bufBri t p).toNat = (bufBri s.buf p).toNat - 1) ∧
    (bufBri s.buf p = 6 →
      bufBri (bufFadeOut^[6] s.buf) p = 0 ∧ bufBri (bufFadeOut^[7] s.buf) p = 0)

/-- R178: `rotateClockwise()` is one of the two shifts of the ring, the same one for every buffer, and
`rotateCounterClockwise()` the other; each takes hue and brightness along and writes nothing else; they are inverses of
each other, and 16 of either are the identity. Which one is which is open (log 14). -/
def Obligations.RotationsAreBijections : Prop :=
  ∃ k : BitVec 4, (k = 1 ∨ k = 15) ∧
    (∀ s : State, ∃ b, hostDo .rotateClockwise s = .next { s with buf := b } ∧
      ∀ p, bufHue b p = bufHue s.buf (p + k) ∧ bufBri b p = bufBri s.buf (p + k)) ∧
    (∀ s : State, ∃ b, hostDo .rotateCounterClockwise s = .next { s with buf := b } ∧
      ∀ p, bufHue b p = bufHue s.buf (p - k) ∧ bufBri b p = bufBri s.buf (p - k)) ∧
    (∀ s t : State, hostDo .rotateClockwise s = .next t → hostDo .rotateCounterClockwise t = .next s) ∧
    (∀ s t : State, hostDo .rotateCounterClockwise s = .next t → hostDo .rotateClockwise t = .next s) ∧
    ∀ b : PixelBuffer, bufClockwise^[16] b = b ∧ bufCounterClockwise^[16] b = b ∧
      ∀ s : State, hostDo .rotateClockwise s = .next { s with buf := bufClockwise s.buf } ∧
        hostDo .rotateCounterClockwise s = .next { s with buf := bufCounterClockwise s.buf }

/-- R182, R183: `next(bound)` with a nonzero bound shifts the generator right, xors `0xB400` in when the bit shifted out
is 1, and returns the new state modulo the bound, below the bound; `next(0)` is refused; a nonzero word never becomes
zero, and zero stays zero. The form of the advance is the spec's passage from general knowledge (log 21). -/
def Obligations.RandomStepAdvancesTheRegister : Prop :=
  (∀ (s : State) (bound : Nat), bound ≠ 0 →
    ∃ v : BitVec 16,
      (∀ k, k < 16 → v.getLsbD k
        = ((s.rng.getLsbD (k + 1)) ^^ (s.rng.getLsbD 0 && (0xB400#16).getLsbD k))) ∧
      hostDo (.next bound) s = .next { s with rng := v, rngOut := v.toNat % bound } ∧
      v.toNat % bound < bound ∧
      (v = 0 ↔ s.rng = 0)) ∧
  (∀ s : State, hostDo (.next 0) s = .refused .randomBoundZero)

/-- R185, R188, R191: a tick leaves state and counter to the count that follows its render call; the count goes down by
one, and at the last tick of a state the next of the eight is entered and the counter reset; a cycle begun at the entry of
state 0 visits state 0 again after 533 ticks and not before, with the position parameters it had and the hues drifted.
The counts 1 and 76 are the reading C6 prefers (log 13); that the count, an entry
included, changes the animation alone is the model's choice (log 13); which parameters come back is log 23. -/
def Obligations.TickCountsTheStates : Prop :=
  (∀ s t : State, hostDo .tick s = .next t →
    t.anim.state = s.anim.state ∧ t.anim.countdown = s.anim.countdown ∧
    ∀ u, hostDo .tickCount t = .next u →
      u.anim = (tickEffect s).anim ∧ u.buf = (tickEffect s).buf ∧ u.rng = (tickEffect s).rng) ∧
  (∀ s : State, ∃ a, hostDo .tickCount s = .next { s with anim := a } ∧
    (1 < s.anim.countdown → a = { s.anim with countdown := s.anim.countdown - 1 }) ∧
    (s.anim.countdown ≤ 1 →
      a.state.toNat = (s.anim.state.toNat + 1) % 8 ∧
      a.countdown = if a.state = 0 then 1 else 76)) ∧
  ∃ drift : AnimParams → Byte × Byte, ∀ s : State,
    s.anim.state = 0 → s.anim.countdown = 1 → s.anim.visit0 = s.anim.params →
    let t := tickEffect^[533] s
    t.anim.state = 0 ∧ t.anim.countdown = 1 ∧ t.anim.visit0 = t.anim.params ∧
    (∀ k, 0 < k → k < 533 → (tickEffect^[k] s).anim.state ≠ 0) ∧
    t.anim.params.pos1 = s.anim.params.pos1 ∧ t.anim.params.pos2 = s.anim.params.pos2 ∧
    t.anim.params.hue1.toNat
      = (s.anim.params.hue1.toNat + (drift s.anim.params).1.toNat) % 192 ∧
    t.anim.params.hue2.toNat
      = (s.anim.params.hue2.toNat + (drift s.anim.params).2.toNat) % 192

/-- R172: the host's buffer operations keep every hue below 192 and every brightness in [0,6], if the hue they are given
is below 192; so the next FRAMEA does not fault. -/
def Obligations.BufferOperationsStayLegal : Prop :=
  ∀ (b : PixelBuffer), BufferLegal b →
    (∀ p hue, hue.toNat < 192 → BufferLegal (bufSet p hue b)) ∧
    (∀ hue, hue.toNat < 192 → BufferLegal (bufFill hue b)) ∧
    BufferLegal (bufClear b) ∧ BufferLegal (bufFadeIn b) ∧ BufferLegal (bufFadeOut b) ∧
    BufferLegal (bufClockwise b) ∧ BufferLegal (bufCounterClockwise b)

/-- R186, R202: a press of an armed spin sets a speed in [16,32) from the counter's low bits and starts it; the steps then
take the speed down to 1 and up to 96, where it stops, after as many steps as there are speeds on the way, each with a hue
below 192; a step of an armed spin changes nothing; while it turns, a scheduled step is followed by one `FRAMER` of the
new pixel and hue, which completes, and the
gap; a press at another time only marks the button down, a release marks it up, and the stopped spin is armed again by
the first poll that finds it up. The choices in it (which step turns, where it stops, what a press or a release does at
another time) are log 20, the issuing log 25; that a step due at `CP = length(PROG)` is still performed is the model's
choice (logs 7 and 9). -/
def Obligations.SpinSpeedsUpThenStops : Prop :=
  (∀ (s : State) (counter : Nat), s.anim.spin.phase = .armed →
    let p : Spin := { s.anim.spin with phase := .faster, speed := 16 + counter % 16, pressed := true }
    hostDo (.press counter) s = .next { s with anim := { s.anim with spin := p } } ∧
    (∀ k, k < p.speed → (spinStep^[k] p).speed = p.speed - k) ∧
    (∀ k, k ≤ 95 → (spinStep^[p.speed - 1 + k] p).speed = 1 + k) ∧
    (∀ k, (spinStep^[k] p).phase = .waiting ↔ p.speed - 1 + 95 ≤ k) ∧
    ∀ k, (spinStep^[k + 1] p).hue.toNat < 192) ∧
  (∀ (s : State) (counter : Nat), s.anim.spin.phase ≠ .armed →
    hostDo (.press counter) s
      = .next { s with anim := { s.anim with spin := { s.anim.spin with pressed := true } } }) ∧
  (∀ s : State, hostDo .release s
    = .next { s with anim := { s.anim with spin := { s.anim.spin with pressed := false } } }) ∧
  (∀ s : State, s.anim.spin.phase = .armed → hostDo .spinStep s = .next s) ∧
  (∀ s : State, s.anim.spin.phase = .waiting →
    hostDo .spinStep s = .next (if s.anim.spin.pressed then s else
      { s with anim := { s.anim with spin := { s.anim.spin with phase := .armed } } })) ∧
  ∀ (s : State) (n : Nat) (rest : List (Nat × HostOp)), s.fault = none → s.ihold = false →
    s.cp ≤ s.prog.length → s.sched = (n, .spinStep) :: rest → n ≤ s.cp →
    (s.anim.spin.phase = .faster ∨ s.anim.spin.phase = .slower) →
    ∃ t u, step s = .next t ∧ t.anim = { s.anim with spin := spinStep s.anim.spin } ∧
      step t = exec (.framer t.anim.spin.pixel t.anim.spin.hue) t ∧ step t = .next u ∧
      u.fault = none ∧ step u = exec .latch u

/-! ## The receiver after a latch, and the frame of a tick -/

/-- R62 (a), (b), (c), (e): after a latched segment nothing is known of a LED it did not reach with 24 bits, the one that
got part of its bits among them; bits beyond 384 have no effect; and an empty latched segment changes nothing. Items (c)
and (e) are from general knowledge (D22); `none` is log 15. -/
def Obligations.UnreachedLedsAreUnspecified : Prop :=
  ∀ (order : Order) (t : List Event) (q : Nat), (segments t).pending = [] →
    (∀ bits : List Bool, bits ≠ [] → bits.length < 24 * (q + 1) →
      ledAfter order (t ++ bits.map .pulse ++ [.latch]) q = none) ∧
    (∀ bits more : List Bool, 384 ≤ bits.length →
      ledAfter order (t ++ (bits ++ more).map .pulse ++ [.latch]) q
        = ledAfter order (t ++ bits.map .pulse ++ [.latch]) q) ∧
    ledAfter order (t ++ [.latch]) q = ledAfter order t q

/-- R188, R172, R181, R199: the whole next state of a tick. The generator is advanced once for each of the action's draws,
nonzero if it was; every brightness is in [0,6], and outside state 5 every hue below 192. In state 5 `hue1` goes on by
`Config.rainbowStep` for each position of `Config.rainbowPixels`, wrapping at 256, and such a position holds the `hue1` of
its last visit, after the step or before it, reduced or not, as `Config.rainbowStepsFirst` and `Config.rainbowReduces` have
it for every position alike, and the others keep their hue. From a scheduled tick the next step is the one `FRAMEA` it
issues, which completes outside state 5, then comes the count, then the gap. What is open is free (logs 13 and 24). Two
clauses are no rule's: that a position state 5 does not fill keeps its hue is the model's choice (log 24), and that the
parameter `hue2`, and outside state 5 `hue1`, is below 192 is an inference from R199 (log 13, DEDUCED). The issuing is
log 25; that a tick due at `CP = length(PROG)` is still performed is the model's choice (logs 7 and 9). -/
def Obligations.TickRendersOneFrame : Prop :=
  (∀ s : State,
    let draws := Config.renderDraws s.anim.state s.buf s.anim.params s.rng
    let rng := lfsrAdvance^[draws.length] s.rng
    ∃ (b : PixelBuffer) (q : AnimParams),
      hostDo .tick s = .next
        { s with
          buf := b, rng := rng
          rngOut := draws.getLast?.elim s.rngOut fun k => rng.toNat % (k + 1)
          anim := { s.anim with params := q }
          prog := s.prog.take s.cp ++ [encode .framea, encode .latch] ++ s.prog.drop s.cp
          sched := (s.cp + 1, .tickCount) :: s.sched.map fun e => (max e.1 s.cp + 2, e.2) } ∧
      (s.rng ≠ 0 → rng ≠ 0) ∧
      (∀ p, (bufBri b p).toNat ≤ 6) ∧ q.hue2.toNat < 192 ∧
      (s.anim.state ≠ 5 → (∀ p, (bufHue b p).toNat < 192) ∧ q.hue1.toNat < 192) ∧
      (s.anim.state = 5 →
        let visits := Config.rainbowPixels s.buf s.anim.params
        q.hue1 = s.anim.params.hue1 + BitVec.ofNat 8 visits.length * Config.rainbowStep ∧
        ∀ p, (p ∉ visits → bufHue b p = bufHue s.buf p) ∧
          ∀ k, visits[k]? = some p → (∀ j, k < j → visits[j]? ≠ some p) →
            (bufHue b p).toNat
              = (s.anim.params.hue1
                  + BitVec.ofNat 8 (if Config.rainbowStepsFirst then k + 1 else k) * Config.rainbowStep).toNat
                % (if Config.rainbowReduces then 192 else 256))) ∧
  ∀ (s : State) (n : Nat) (rest : List (Nat × HostOp)), s.fault = none → s.ihold = false →
    s.cp ≤ s.prog.length → s.sched = (n, .tick) :: rest → n ≤ s.cp →
    ∃ t, step s = .next t ∧ t.trace = s.trace ∧ t.cp = s.cp ∧
      step t = exec .framea t ∧
      (s.anim.state ≠ 5 → ∃ u, exec .framea t = .next u ∧ u.fault = none) ∧
      ∀ u, exec .framea t = .next u → u.fault = none →
        ∃ v, step u = .next v ∧ v.anim = (tickEffect s).anim ∧
          v.trace = u.trace ∧ step v = exec .latch v
end

