-- ==== Sys2Proof/Laws/Bits.lean ====
section
/-! SUPPORT. Bytes, pixels and frames on the wire as plain lists of bits, and reading them back. -/

namespace Sys2Proof.Machine

/-- The bits of a byte as they go out (R103). -/
def byteBits (v : Byte) : List Bool := [7, 6, 5, 4, 3, 2, 1, 0].map fun i => v.getLsbD i

/-- The bits of a pixel (R121). -/
def colorBits (order : Order) (c : Color) : List Bool :=
  byteBits (wire order c).1 ++ byteBits (wire order c).2.1 ++ byteBits (wire order c).2.2

/-- The bits of `n` pixels from position `p` (R157). -/
def pixelsBits (order : Order) (color : Nat → Color) (p n : Nat) : List Bool :=
  (List.range n).flatMap fun q => colorBits order (color (p + q))

theorem byteEvents_eq (v : Byte) : byteEvents v = (byteBits v).map Event.pulse := rfl

theorem colorEvents_eq (order : Order) (c : Color) :
    colorEvents order c = (colorBits order c).map Event.pulse := by
  simp [colorEvents, colorBits, byteEvents_eq]

@[simp] theorem byteBits_length (v : Byte) : (byteBits v).length = 8 := rfl

@[simp] theorem colorBits_length (order : Order) (c : Color) : (colorBits order c).length = 24 := by
  simp [colorBits]

@[simp] theorem pixelsBits_length (order : Order) (color : Nat → Color) (p n : Nat) :
    (pixelsBits order color p n).length = 24 * n := by
  simp [pixelsBits, List.length_flatMap, Nat.mul_comm]

theorem pixelsBits_succ (order : Order) (color : Nat → Color) (p n : Nat) :
    pixelsBits order color p (n + 1)
      = colorBits order (color p) ++ pixelsBits order color (p + 1) n := by
  rw [pixelsBits, List.range_succ_eq_map, List.flatMap_cons, List.flatMap_map, pixelsBits]
  congr 2
  funext q
  congr 2
  omega

theorem pixelsEvents_eq (order : Order) (color : Nat → Color) (p n : Nat) :
    pixelsEvents order color p n = (pixelsBits order color p n).map Event.pulse := by
  induction n generalizing p with
  | zero => rfl
  | succ n ih => rw [pixelsEvents, ih, pixelsBits_succ, List.map_append, colorEvents_eq]

/-- A byte read back from its bits (R61). -/
theorem byteOfBits_byteBits (v : Byte) : byteOfBits (byteBits v) = v := by
  revert v; decide

/-- A color read back from its wire bytes, in either order (R56, R61). -/
theorem unwire_wire (order : Order) (c : Color) :
    unwire order (wire order c).1 (wire order c).2.1 (wire order c).2.2 = c := by
  cases order <;> rfl

/-- A stretch of pulses adds its bits to the pending segment (R59, R61). -/
theorem foldl_push_pulses (g : Segments) (l : List Bool) :
    (l.map Event.pulse).foldl Segments.push g = ⟨g.latched, g.pending ++ l⟩ := by
  induction l generalizing g with
  | nil => simp
  | cons b l ih => simp [ih, Segments.push]

end Sys2Proof.Machine
end

