-- ==== Sys2Proof/Laws/State.lean ====
section
/-! SUPPORT. Reading a field after an update: one lemma per field per setter of `Machine/Ops.lean`, each by `rfl`. -/

namespace Sys2Proof.Machine

@[simp] theorem State.setLine_line (s : State) (v : Bool) : (s.setLine v).line = v := rfl
@[simp] theorem State.setLine_sr (s : State) (v : Bool) : (s.setLine v).sr = s.sr := rfl
@[simp] theorem State.setLine_bc (s : State) (v : Bool) : (s.setLine v).bc = s.bc := rfl
@[simp] theorem State.setLine_pix (s : State) (v : Bool) : (s.setLine v).pix = s.pix := rfl
@[simp] theorem State.setLine_ihold (s : State) (v : Bool) : (s.setLine v).ihold = s.ihold := rfl
@[simp] theorem State.setLine_isave (s : State) (v : Bool) : (s.setLine v).isave = s.isave := rfl
@[simp] theorem State.setLine_ie (s : State) (v : Bool) : (s.setLine v).ie = s.ie := rfl
@[simp] theorem State.setLine_cp (s : State) (v : Bool) : (s.setLine v).cp = s.cp := rfl
@[simp] theorem State.setLine_trace (s : State) (v : Bool) : (s.setLine v).trace = s.trace := rfl
@[simp] theorem State.setLine_fault (s : State) (v : Bool) : (s.setLine v).fault = s.fault := rfl
@[simp] theorem State.setLine_gamma (s : State) (v : Bool) : (s.setLine v).gamma = s.gamma := rfl
@[simp] theorem State.setLine_order (s : State) (v : Bool) : (s.setLine v).order = s.order := rfl
@[simp] theorem State.setLine_buf (s : State) (v : Bool) : (s.setLine v).buf = s.buf := rfl
@[simp] theorem State.setLine_rng (s : State) (v : Bool) : (s.setLine v).rng = s.rng := rfl
@[simp] theorem State.setLine_rngOut (s : State) (v : Bool) : (s.setLine v).rngOut = s.rngOut := rfl
@[simp] theorem State.setLine_anim (s : State) (v : Bool) : (s.setLine v).anim = s.anim := rfl
@[simp] theorem State.setLine_prog (s : State) (v : Bool) : (s.setLine v).prog = s.prog := rfl
@[simp] theorem State.setLine_sched (s : State) (v : Bool) : (s.setLine v).sched = s.sched := rfl

@[simp] theorem State.setSr_line (s : State) (v : Byte) : (s.setSr v).line = s.line := rfl
@[simp] theorem State.setSr_sr (s : State) (v : Byte) : (s.setSr v).sr = v := rfl
@[simp] theorem State.setSr_bc (s : State) (v : Byte) : (s.setSr v).bc = s.bc := rfl
@[simp] theorem State.setSr_pix (s : State) (v : Byte) : (s.setSr v).pix = s.pix := rfl
@[simp] theorem State.setSr_ihold (s : State) (v : Byte) : (s.setSr v).ihold = s.ihold := rfl
@[simp] theorem State.setSr_isave (s : State) (v : Byte) : (s.setSr v).isave = s.isave := rfl
@[simp] theorem State.setSr_ie (s : State) (v : Byte) : (s.setSr v).ie = s.ie := rfl
@[simp] theorem State.setSr_cp (s : State) (v : Byte) : (s.setSr v).cp = s.cp := rfl
@[simp] theorem State.setSr_trace (s : State) (v : Byte) : (s.setSr v).trace = s.trace := rfl
@[simp] theorem State.setSr_fault (s : State) (v : Byte) : (s.setSr v).fault = s.fault := rfl
@[simp] theorem State.setSr_gamma (s : State) (v : Byte) : (s.setSr v).gamma = s.gamma := rfl
@[simp] theorem State.setSr_order (s : State) (v : Byte) : (s.setSr v).order = s.order := rfl
@[simp] theorem State.setSr_buf (s : State) (v : Byte) : (s.setSr v).buf = s.buf := rfl
@[simp] theorem State.setSr_rng (s : State) (v : Byte) : (s.setSr v).rng = s.rng := rfl
@[simp] theorem State.setSr_rngOut (s : State) (v : Byte) : (s.setSr v).rngOut = s.rngOut := rfl
@[simp] theorem State.setSr_anim (s : State) (v : Byte) : (s.setSr v).anim = s.anim := rfl
@[simp] theorem State.setSr_prog (s : State) (v : Byte) : (s.setSr v).prog = s.prog := rfl
@[simp] theorem State.setSr_sched (s : State) (v : Byte) : (s.setSr v).sched = s.sched := rfl

@[simp] theorem State.setBc_line (s : State) (v : BitVec 4) : (s.setBc v).line = s.line := rfl
@[simp] theorem State.setBc_sr (s : State) (v : BitVec 4) : (s.setBc v).sr = s.sr := rfl
@[simp] theorem State.setBc_bc (s : State) (v : BitVec 4) : (s.setBc v).bc = v := rfl
@[simp] theorem State.setBc_pix (s : State) (v : BitVec 4) : (s.setBc v).pix = s.pix := rfl
@[simp] theorem State.setBc_ihold (s : State) (v : BitVec 4) : (s.setBc v).ihold = s.ihold := rfl
@[simp] theorem State.setBc_isave (s : State) (v : BitVec 4) : (s.setBc v).isave = s.isave := rfl
@[simp] theorem State.setBc_ie (s : State) (v : BitVec 4) : (s.setBc v).ie = s.ie := rfl
@[simp] theorem State.setBc_cp (s : State) (v : BitVec 4) : (s.setBc v).cp = s.cp := rfl
@[simp] theorem State.setBc_trace (s : State) (v : BitVec 4) : (s.setBc v).trace = s.trace := rfl
@[simp] theorem State.setBc_fault (s : State) (v : BitVec 4) : (s.setBc v).fault = s.fault := rfl
@[simp] theorem State.setBc_gamma (s : State) (v : BitVec 4) : (s.setBc v).gamma = s.gamma := rfl
@[simp] theorem State.setBc_order (s : State) (v : BitVec 4) : (s.setBc v).order = s.order := rfl
@[simp] theorem State.setBc_buf (s : State) (v : BitVec 4) : (s.setBc v).buf = s.buf := rfl
@[simp] theorem State.setBc_rng (s : State) (v : BitVec 4) : (s.setBc v).rng = s.rng := rfl
@[simp] theorem State.setBc_rngOut (s : State) (v : BitVec 4) : (s.setBc v).rngOut = s.rngOut := rfl
@[simp] theorem State.setBc_anim (s : State) (v : BitVec 4) : (s.setBc v).anim = s.anim := rfl
@[simp] theorem State.setBc_prog (s : State) (v : BitVec 4) : (s.setBc v).prog = s.prog := rfl
@[simp] theorem State.setBc_sched (s : State) (v : BitVec 4) : (s.setBc v).sched = s.sched := rfl

@[simp] theorem State.setPix_line (s : State) (v : BitVec 5) : (s.setPix v).line = s.line := rfl
@[simp] theorem State.setPix_sr (s : State) (v : BitVec 5) : (s.setPix v).sr = s.sr := rfl
@[simp] theorem State.setPix_bc (s : State) (v : BitVec 5) : (s.setPix v).bc = s.bc := rfl
@[simp] theorem State.setPix_pix (s : State) (v : BitVec 5) : (s.setPix v).pix = v := rfl
@[simp] theorem State.setPix_ihold (s : State) (v : BitVec 5) : (s.setPix v).ihold = s.ihold := rfl
@[simp] theorem State.setPix_isave (s : State) (v : BitVec 5) : (s.setPix v).isave = s.isave := rfl
@[simp] theorem State.setPix_ie (s : State) (v : BitVec 5) : (s.setPix v).ie = s.ie := rfl
@[simp] theorem State.setPix_cp (s : State) (v : BitVec 5) : (s.setPix v).cp = s.cp := rfl
@[simp] theorem State.setPix_trace (s : State) (v : BitVec 5) : (s.setPix v).trace = s.trace := rfl
@[simp] theorem State.setPix_fault (s : State) (v : BitVec 5) : (s.setPix v).fault = s.fault := rfl
@[simp] theorem State.setPix_gamma (s : State) (v : BitVec 5) : (s.setPix v).gamma = s.gamma := rfl
@[simp] theorem State.setPix_order (s : State) (v : BitVec 5) : (s.setPix v).order = s.order := rfl
@[simp] theorem State.setPix_buf (s : State) (v : BitVec 5) : (s.setPix v).buf = s.buf := rfl
@[simp] theorem State.setPix_rng (s : State) (v : BitVec 5) : (s.setPix v).rng = s.rng := rfl
@[simp] theorem State.setPix_rngOut (s : State) (v : BitVec 5) : (s.setPix v).rngOut = s.rngOut := rfl
@[simp] theorem State.setPix_anim (s : State) (v : BitVec 5) : (s.setPix v).anim = s.anim := rfl
@[simp] theorem State.setPix_prog (s : State) (v : BitVec 5) : (s.setPix v).prog = s.prog := rfl
@[simp] theorem State.setPix_sched (s : State) (v : BitVec 5) : (s.setPix v).sched = s.sched := rfl

@[simp] theorem State.setIhold_line (s : State) (v : Bool) : (s.setIhold v).line = s.line := rfl
@[simp] theorem State.setIhold_sr (s : State) (v : Bool) : (s.setIhold v).sr = s.sr := rfl
@[simp] theorem State.setIhold_bc (s : State) (v : Bool) : (s.setIhold v).bc = s.bc := rfl
@[simp] theorem State.setIhold_pix (s : State) (v : Bool) : (s.setIhold v).pix = s.pix := rfl
@[simp] theorem State.setIhold_ihold (s : State) (v : Bool) : (s.setIhold v).ihold = v := rfl
@[simp] theorem State.setIhold_isave (s : State) (v : Bool) : (s.setIhold v).isave = s.isave := rfl
@[simp] theorem State.setIhold_ie (s : State) (v : Bool) : (s.setIhold v).ie = s.ie := rfl
@[simp] theorem State.setIhold_cp (s : State) (v : Bool) : (s.setIhold v).cp = s.cp := rfl
@[simp] theorem State.setIhold_trace (s : State) (v : Bool) : (s.setIhold v).trace = s.trace := rfl
@[simp] theorem State.setIhold_fault (s : State) (v : Bool) : (s.setIhold v).fault = s.fault := rfl
@[simp] theorem State.setIhold_gamma (s : State) (v : Bool) : (s.setIhold v).gamma = s.gamma := rfl
@[simp] theorem State.setIhold_order (s : State) (v : Bool) : (s.setIhold v).order = s.order := rfl
@[simp] theorem State.setIhold_buf (s : State) (v : Bool) : (s.setIhold v).buf = s.buf := rfl
@[simp] theorem State.setIhold_rng (s : State) (v : Bool) : (s.setIhold v).rng = s.rng := rfl
@[simp] theorem State.setIhold_rngOut (s : State) (v : Bool) : (s.setIhold v).rngOut = s.rngOut := rfl
@[simp] theorem State.setIhold_anim (s : State) (v : Bool) : (s.setIhold v).anim = s.anim := rfl
@[simp] theorem State.setIhold_prog (s : State) (v : Bool) : (s.setIhold v).prog = s.prog := rfl
@[simp] theorem State.setIhold_sched (s : State) (v : Bool) : (s.setIhold v).sched = s.sched := rfl

@[simp] theorem State.setIsave_line (s : State) (v : Bool) : (s.setIsave v).line = s.line := rfl
@[simp] theorem State.setIsave_sr (s : State) (v : Bool) : (s.setIsave v).sr = s.sr := rfl
@[simp] theorem State.setIsave_bc (s : State) (v : Bool) : (s.setIsave v).bc = s.bc := rfl
@[simp] theorem State.setIsave_pix (s : State) (v : Bool) : (s.setIsave v).pix = s.pix := rfl
@[simp] theorem State.setIsave_ihold (s : State) (v : Bool) : (s.setIsave v).ihold = s.ihold := rfl
@[simp] theorem State.setIsave_isave (s : State) (v : Bool) : (s.setIsave v).isave = v := rfl
@[simp] theorem State.setIsave_ie (s : State) (v : Bool) : (s.setIsave v).ie = s.ie := rfl
@[simp] theorem State.setIsave_cp (s : State) (v : Bool) : (s.setIsave v).cp = s.cp := rfl
@[simp] theorem State.setIsave_trace (s : State) (v : Bool) : (s.setIsave v).trace = s.trace := rfl
@[simp] theorem State.setIsave_fault (s : State) (v : Bool) : (s.setIsave v).fault = s.fault := rfl
@[simp] theorem State.setIsave_gamma (s : State) (v : Bool) : (s.setIsave v).gamma = s.gamma := rfl
@[simp] theorem State.setIsave_order (s : State) (v : Bool) : (s.setIsave v).order = s.order := rfl
@[simp] theorem State.setIsave_buf (s : State) (v : Bool) : (s.setIsave v).buf = s.buf := rfl
@[simp] theorem State.setIsave_rng (s : State) (v : Bool) : (s.setIsave v).rng = s.rng := rfl
@[simp] theorem State.setIsave_rngOut (s : State) (v : Bool) : (s.setIsave v).rngOut = s.rngOut := rfl
@[simp] theorem State.setIsave_anim (s : State) (v : Bool) : (s.setIsave v).anim = s.anim := rfl
@[simp] theorem State.setIsave_prog (s : State) (v : Bool) : (s.setIsave v).prog = s.prog := rfl
@[simp] theorem State.setIsave_sched (s : State) (v : Bool) : (s.setIsave v).sched = s.sched := rfl

@[simp] theorem State.setIe_line (s : State) (v : Bool) : (s.setIe v).line = s.line := rfl
@[simp] theorem State.setIe_sr (s : State) (v : Bool) : (s.setIe v).sr = s.sr := rfl
@[simp] theorem State.setIe_bc (s : State) (v : Bool) : (s.setIe v).bc = s.bc := rfl
@[simp] theorem State.setIe_pix (s : State) (v : Bool) : (s.setIe v).pix = s.pix := rfl
@[simp] theorem State.setIe_ihold (s : State) (v : Bool) : (s.setIe v).ihold = s.ihold := rfl
@[simp] theorem State.setIe_isave (s : State) (v : Bool) : (s.setIe v).isave = s.isave := rfl
@[simp] theorem State.setIe_ie (s : State) (v : Bool) : (s.setIe v).ie = v := rfl
@[simp] theorem State.setIe_cp (s : State) (v : Bool) : (s.setIe v).cp = s.cp := rfl
@[simp] theorem State.setIe_trace (s : State) (v : Bool) : (s.setIe v).trace = s.trace := rfl
@[simp] theorem State.setIe_fault (s : State) (v : Bool) : (s.setIe v).fault = s.fault := rfl
@[simp] theorem State.setIe_gamma (s : State) (v : Bool) : (s.setIe v).gamma = s.gamma := rfl
@[simp] theorem State.setIe_order (s : State) (v : Bool) : (s.setIe v).order = s.order := rfl
@[simp] theorem State.setIe_buf (s : State) (v : Bool) : (s.setIe v).buf = s.buf := rfl
@[simp] theorem State.setIe_rng (s : State) (v : Bool) : (s.setIe v).rng = s.rng := rfl
@[simp] theorem State.setIe_rngOut (s : State) (v : Bool) : (s.setIe v).rngOut = s.rngOut := rfl
@[simp] theorem State.setIe_anim (s : State) (v : Bool) : (s.setIe v).anim = s.anim := rfl
@[simp] theorem State.setIe_prog (s : State) (v : Bool) : (s.setIe v).prog = s.prog := rfl
@[simp] theorem State.setIe_sched (s : State) (v : Bool) : (s.setIe v).sched = s.sched := rfl

@[simp] theorem State.advance_line (s : State) : s.advance.line = s.line := rfl
@[simp] theorem State.advance_sr (s : State) : s.advance.sr = s.sr := rfl
@[simp] theorem State.advance_bc (s : State) : s.advance.bc = s.bc := rfl
@[simp] theorem State.advance_pix (s : State) : s.advance.pix = s.pix := rfl
@[simp] theorem State.advance_ihold (s : State) : s.advance.ihold = s.ihold := rfl
@[simp] theorem State.advance_isave (s : State) : s.advance.isave = s.isave := rfl
@[simp] theorem State.advance_ie (s : State) : s.advance.ie = s.ie := rfl
@[simp] theorem State.advance_cp (s : State) : s.advance.cp = s.cp + 1 := rfl
@[simp] theorem State.advance_trace (s : State) : s.advance.trace = s.trace := rfl
@[simp] theorem State.advance_fault (s : State) : s.advance.fault = s.fault := rfl
@[simp] theorem State.advance_gamma (s : State) : s.advance.gamma = s.gamma := rfl
@[simp] theorem State.advance_order (s : State) : s.advance.order = s.order := rfl
@[simp] theorem State.advance_buf (s : State) : s.advance.buf = s.buf := rfl
@[simp] theorem State.advance_rng (s : State) : s.advance.rng = s.rng := rfl
@[simp] theorem State.advance_rngOut (s : State) : s.advance.rngOut = s.rngOut := rfl
@[simp] theorem State.advance_anim (s : State) : s.advance.anim = s.anim := rfl
@[simp] theorem State.advance_prog (s : State) : s.advance.prog = s.prog := rfl
@[simp] theorem State.advance_sched (s : State) : s.advance.sched = s.sched := rfl

@[simp] theorem State.emit_line (s : State) (v : Event) : (s.emit v).line = s.line := rfl
@[simp] theorem State.emit_sr (s : State) (v : Event) : (s.emit v).sr = s.sr := rfl
@[simp] theorem State.emit_bc (s : State) (v : Event) : (s.emit v).bc = s.bc := rfl
@[simp] theorem State.emit_pix (s : State) (v : Event) : (s.emit v).pix = s.pix := rfl
@[simp] theorem State.emit_ihold (s : State) (v : Event) : (s.emit v).ihold = s.ihold := rfl
@[simp] theorem State.emit_isave (s : State) (v : Event) : (s.emit v).isave = s.isave := rfl
@[simp] theorem State.emit_ie (s : State) (v : Event) : (s.emit v).ie = s.ie := rfl
@[simp] theorem State.emit_cp (s : State) (v : Event) : (s.emit v).cp = s.cp := rfl
@[simp] theorem State.emit_trace (s : State) (v : Event) : (s.emit v).trace = s.trace ++ [v] := rfl
@[simp] theorem State.emit_fault (s : State) (v : Event) : (s.emit v).fault = s.fault := rfl
@[simp] theorem State.emit_gamma (s : State) (v : Event) : (s.emit v).gamma = s.gamma := rfl
@[simp] theorem State.emit_order (s : State) (v : Event) : (s.emit v).order = s.order := rfl
@[simp] theorem State.emit_buf (s : State) (v : Event) : (s.emit v).buf = s.buf := rfl
@[simp] theorem State.emit_rng (s : State) (v : Event) : (s.emit v).rng = s.rng := rfl
@[simp] theorem State.emit_rngOut (s : State) (v : Event) : (s.emit v).rngOut = s.rngOut := rfl
@[simp] theorem State.emit_anim (s : State) (v : Event) : (s.emit v).anim = s.anim := rfl
@[simp] theorem State.emit_prog (s : State) (v : Event) : (s.emit v).prog = s.prog := rfl
@[simp] theorem State.emit_sched (s : State) (v : Event) : (s.emit v).sched = s.sched := rfl

@[simp] theorem State.setFault_line (s : State) (v : Option FaultRecord) : (s.setFault v).line = s.line := rfl
@[simp] theorem State.setFault_sr (s : State) (v : Option FaultRecord) : (s.setFault v).sr = s.sr := rfl
@[simp] theorem State.setFault_bc (s : State) (v : Option FaultRecord) : (s.setFault v).bc = s.bc := rfl
@[simp] theorem State.setFault_pix (s : State) (v : Option FaultRecord) : (s.setFault v).pix = s.pix := rfl
@[simp] theorem State.setFault_ihold (s : State) (v : Option FaultRecord) : (s.setFault v).ihold = s.ihold := rfl
@[simp] theorem State.setFault_isave (s : State) (v : Option FaultRecord) : (s.setFault v).isave = s.isave := rfl
@[simp] theorem State.setFault_ie (s : State) (v : Option FaultRecord) : (s.setFault v).ie = s.ie := rfl
@[simp] theorem State.setFault_cp (s : State) (v : Option FaultRecord) : (s.setFault v).cp = s.cp := rfl
@[simp] theorem State.setFault_trace (s : State) (v : Option FaultRecord) : (s.setFault v).trace = s.trace := rfl
@[simp] theorem State.setFault_fault (s : State) (v : Option FaultRecord) : (s.setFault v).fault = v := rfl
@[simp] theorem State.setFault_gamma (s : State) (v : Option FaultRecord) : (s.setFault v).gamma = s.gamma := rfl
@[simp] theorem State.setFault_order (s : State) (v : Option FaultRecord) : (s.setFault v).order = s.order := rfl
@[simp] theorem State.setFault_buf (s : State) (v : Option FaultRecord) : (s.setFault v).buf = s.buf := rfl
@[simp] theorem State.setFault_rng (s : State) (v : Option FaultRecord) : (s.setFault v).rng = s.rng := rfl
@[simp] theorem State.setFault_rngOut (s : State) (v : Option FaultRecord) : (s.setFault v).rngOut = s.rngOut := rfl
@[simp] theorem State.setFault_anim (s : State) (v : Option FaultRecord) : (s.setFault v).anim = s.anim := rfl
@[simp] theorem State.setFault_prog (s : State) (v : Option FaultRecord) : (s.setFault v).prog = s.prog := rfl
@[simp] theorem State.setFault_sched (s : State) (v : Option FaultRecord) : (s.setFault v).sched = s.sched := rfl

@[simp] theorem State.setBuf_line (s : State) (v : PixelBuffer) : (s.setBuf v).line = s.line := rfl
@[simp] theorem State.setBuf_sr (s : State) (v : PixelBuffer) : (s.setBuf v).sr = s.sr := rfl
@[simp] theorem State.setBuf_bc (s : State) (v : PixelBuffer) : (s.setBuf v).bc = s.bc := rfl
@[simp] theorem State.setBuf_pix (s : State) (v : PixelBuffer) : (s.setBuf v).pix = s.pix := rfl
@[simp] theorem State.setBuf_ihold (s : State) (v : PixelBuffer) : (s.setBuf v).ihold = s.ihold := rfl
@[simp] theorem State.setBuf_isave (s : State) (v : PixelBuffer) : (s.setBuf v).isave = s.isave := rfl
@[simp] theorem State.setBuf_ie (s : State) (v : PixelBuffer) : (s.setBuf v).ie = s.ie := rfl
@[simp] theorem State.setBuf_cp (s : State) (v : PixelBuffer) : (s.setBuf v).cp = s.cp := rfl
@[simp] theorem State.setBuf_trace (s : State) (v : PixelBuffer) : (s.setBuf v).trace = s.trace := rfl
@[simp] theorem State.setBuf_fault (s : State) (v : PixelBuffer) : (s.setBuf v).fault = s.fault := rfl
@[simp] theorem State.setBuf_gamma (s : State) (v : PixelBuffer) : (s.setBuf v).gamma = s.gamma := rfl
@[simp] theorem State.setBuf_order (s : State) (v : PixelBuffer) : (s.setBuf v).order = s.order := rfl
@[simp] theorem State.setBuf_buf (s : State) (v : PixelBuffer) : (s.setBuf v).buf = v := rfl
@[simp] theorem State.setBuf_rng (s : State) (v : PixelBuffer) : (s.setBuf v).rng = s.rng := rfl
@[simp] theorem State.setBuf_rngOut (s : State) (v : PixelBuffer) : (s.setBuf v).rngOut = s.rngOut := rfl
@[simp] theorem State.setBuf_anim (s : State) (v : PixelBuffer) : (s.setBuf v).anim = s.anim := rfl
@[simp] theorem State.setBuf_prog (s : State) (v : PixelBuffer) : (s.setBuf v).prog = s.prog := rfl
@[simp] theorem State.setBuf_sched (s : State) (v : PixelBuffer) : (s.setBuf v).sched = s.sched := rfl

@[simp] theorem State.setRng_line (s : State) (v : BitVec 16) : (s.setRng v).line = s.line := rfl
@[simp] theorem State.setRng_sr (s : State) (v : BitVec 16) : (s.setRng v).sr = s.sr := rfl
@[simp] theorem State.setRng_bc (s : State) (v : BitVec 16) : (s.setRng v).bc = s.bc := rfl
@[simp] theorem State.setRng_pix (s : State) (v : BitVec 16) : (s.setRng v).pix = s.pix := rfl
@[simp] theorem State.setRng_ihold (s : State) (v : BitVec 16) : (s.setRng v).ihold = s.ihold := rfl
@[simp] theorem State.setRng_isave (s : State) (v : BitVec 16) : (s.setRng v).isave = s.isave := rfl
@[simp] theorem State.setRng_ie (s : State) (v : BitVec 16) : (s.setRng v).ie = s.ie := rfl
@[simp] theorem State.setRng_cp (s : State) (v : BitVec 16) : (s.setRng v).cp = s.cp := rfl
@[simp] theorem State.setRng_trace (s : State) (v : BitVec 16) : (s.setRng v).trace = s.trace := rfl
@[simp] theorem State.setRng_fault (s : State) (v : BitVec 16) : (s.setRng v).fault = s.fault := rfl
@[simp] theorem State.setRng_gamma (s : State) (v : BitVec 16) : (s.setRng v).gamma = s.gamma := rfl
@[simp] theorem State.setRng_order (s : State) (v : BitVec 16) : (s.setRng v).order = s.order := rfl
@[simp] theorem State.setRng_buf (s : State) (v : BitVec 16) : (s.setRng v).buf = s.buf := rfl
@[simp] theorem State.setRng_rng (s : State) (v : BitVec 16) : (s.setRng v).rng = v := rfl
@[simp] theorem State.setRng_rngOut (s : State) (v : BitVec 16) : (s.setRng v).rngOut = s.rngOut := rfl
@[simp] theorem State.setRng_anim (s : State) (v : BitVec 16) : (s.setRng v).anim = s.anim := rfl
@[simp] theorem State.setRng_prog (s : State) (v : BitVec 16) : (s.setRng v).prog = s.prog := rfl
@[simp] theorem State.setRng_sched (s : State) (v : BitVec 16) : (s.setRng v).sched = s.sched := rfl

@[simp] theorem State.setRngOut_line (s : State) (v : Nat) : (s.setRngOut v).line = s.line := rfl
@[simp] theorem State.setRngOut_sr (s : State) (v : Nat) : (s.setRngOut v).sr = s.sr := rfl
@[simp] theorem State.setRngOut_bc (s : State) (v : Nat) : (s.setRngOut v).bc = s.bc := rfl
@[simp] theorem State.setRngOut_pix (s : State) (v : Nat) : (s.setRngOut v).pix = s.pix := rfl
@[simp] theorem State.setRngOut_ihold (s : State) (v : Nat) : (s.setRngOut v).ihold = s.ihold := rfl
@[simp] theorem State.setRngOut_isave (s : State) (v : Nat) : (s.setRngOut v).isave = s.isave := rfl
@[simp] theorem State.setRngOut_ie (s : State) (v : Nat) : (s.setRngOut v).ie = s.ie := rfl
@[simp] theorem State.setRngOut_cp (s : State) (v : Nat) : (s.setRngOut v).cp = s.cp := rfl
@[simp] theorem State.setRngOut_trace (s : State) (v : Nat) : (s.setRngOut v).trace = s.trace := rfl
@[simp] theorem State.setRngOut_fault (s : State) (v : Nat) : (s.setRngOut v).fault = s.fault := rfl
@[simp] theorem State.setRngOut_gamma (s : State) (v : Nat) : (s.setRngOut v).gamma = s.gamma := rfl
@[simp] theorem State.setRngOut_order (s : State) (v : Nat) : (s.setRngOut v).order = s.order := rfl
@[simp] theorem State.setRngOut_buf (s : State) (v : Nat) : (s.setRngOut v).buf = s.buf := rfl
@[simp] theorem State.setRngOut_rng (s : State) (v : Nat) : (s.setRngOut v).rng = s.rng := rfl
@[simp] theorem State.setRngOut_rngOut (s : State) (v : Nat) : (s.setRngOut v).rngOut = v := rfl
@[simp] theorem State.setRngOut_anim (s : State) (v : Nat) : (s.setRngOut v).anim = s.anim := rfl
@[simp] theorem State.setRngOut_prog (s : State) (v : Nat) : (s.setRngOut v).prog = s.prog := rfl
@[simp] theorem State.setRngOut_sched (s : State) (v : Nat) : (s.setRngOut v).sched = s.sched := rfl

@[simp] theorem State.setAnim_line (s : State) (v : Anim) : (s.setAnim v).line = s.line := rfl
@[simp] theorem State.setAnim_sr (s : State) (v : Anim) : (s.setAnim v).sr = s.sr := rfl
@[simp] theorem State.setAnim_bc (s : State) (v : Anim) : (s.setAnim v).bc = s.bc := rfl
@[simp] theorem State.setAnim_pix (s : State) (v : Anim) : (s.setAnim v).pix = s.pix := rfl
@[simp] theorem State.setAnim_ihold (s : State) (v : Anim) : (s.setAnim v).ihold = s.ihold := rfl
@[simp] theorem State.setAnim_isave (s : State) (v : Anim) : (s.setAnim v).isave = s.isave := rfl
@[simp] theorem State.setAnim_ie (s : State) (v : Anim) : (s.setAnim v).ie = s.ie := rfl
@[simp] theorem State.setAnim_cp (s : State) (v : Anim) : (s.setAnim v).cp = s.cp := rfl
@[simp] theorem State.setAnim_trace (s : State) (v : Anim) : (s.setAnim v).trace = s.trace := rfl
@[simp] theorem State.setAnim_fault (s : State) (v : Anim) : (s.setAnim v).fault = s.fault := rfl
@[simp] theorem State.setAnim_gamma (s : State) (v : Anim) : (s.setAnim v).gamma = s.gamma := rfl
@[simp] theorem State.setAnim_order (s : State) (v : Anim) : (s.setAnim v).order = s.order := rfl
@[simp] theorem State.setAnim_buf (s : State) (v : Anim) : (s.setAnim v).buf = s.buf := rfl
@[simp] theorem State.setAnim_rng (s : State) (v : Anim) : (s.setAnim v).rng = s.rng := rfl
@[simp] theorem State.setAnim_rngOut (s : State) (v : Anim) : (s.setAnim v).rngOut = s.rngOut := rfl
@[simp] theorem State.setAnim_anim (s : State) (v : Anim) : (s.setAnim v).anim = v := rfl
@[simp] theorem State.setAnim_prog (s : State) (v : Anim) : (s.setAnim v).prog = s.prog := rfl
@[simp] theorem State.setAnim_sched (s : State) (v : Anim) : (s.setAnim v).sched = s.sched := rfl

@[simp] theorem State.setProg_line (s : State) (v : List CW) : (s.setProg v).line = s.line := rfl
@[simp] theorem State.setProg_sr (s : State) (v : List CW) : (s.setProg v).sr = s.sr := rfl
@[simp] theorem State.setProg_bc (s : State) (v : List CW) : (s.setProg v).bc = s.bc := rfl
@[simp] theorem State.setProg_pix (s : State) (v : List CW) : (s.setProg v).pix = s.pix := rfl
@[simp] theorem State.setProg_ihold (s : State) (v : List CW) : (s.setProg v).ihold = s.ihold := rfl
@[simp] theorem State.setProg_isave (s : State) (v : List CW) : (s.setProg v).isave = s.isave := rfl
@[simp] theorem State.setProg_ie (s : State) (v : List CW) : (s.setProg v).ie = s.ie := rfl
@[simp] theorem State.setProg_cp (s : State) (v : List CW) : (s.setProg v).cp = s.cp := rfl
@[simp] theorem State.setProg_trace (s : State) (v : List CW) : (s.setProg v).trace = s.trace := rfl
@[simp] theorem State.setProg_fault (s : State) (v : List CW) : (s.setProg v).fault = s.fault := rfl
@[simp] theorem State.setProg_gamma (s : State) (v : List CW) : (s.setProg v).gamma = s.gamma := rfl
@[simp] theorem State.setProg_order (s : State) (v : List CW) : (s.setProg v).order = s.order := rfl
@[simp] theorem State.setProg_buf (s : State) (v : List CW) : (s.setProg v).buf = s.buf := rfl
@[simp] theorem State.setProg_rng (s : State) (v : List CW) : (s.setProg v).rng = s.rng := rfl
@[simp] theorem State.setProg_rngOut (s : State) (v : List CW) : (s.setProg v).rngOut = s.rngOut := rfl
@[simp] theorem State.setProg_anim (s : State) (v : List CW) : (s.setProg v).anim = s.anim := rfl
@[simp] theorem State.setProg_prog (s : State) (v : List CW) : (s.setProg v).prog = v := rfl
@[simp] theorem State.setProg_sched (s : State) (v : List CW) : (s.setProg v).sched = s.sched := rfl

@[simp] theorem State.setSched_line (s : State) (v : List (Nat × HostOp)) : (s.setSched v).line = s.line := rfl
@[simp] theorem State.setSched_sr (s : State) (v : List (Nat × HostOp)) : (s.setSched v).sr = s.sr := rfl
@[simp] theorem State.setSched_bc (s : State) (v : List (Nat × HostOp)) : (s.setSched v).bc = s.bc := rfl
@[simp] theorem State.setSched_pix (s : State) (v : List (Nat × HostOp)) : (s.setSched v).pix = s.pix := rfl
@[simp] theorem State.setSched_ihold (s : State) (v : List (Nat × HostOp)) : (s.setSched v).ihold = s.ihold := rfl
@[simp] theorem State.setSched_isave (s : State) (v : List (Nat × HostOp)) : (s.setSched v).isave = s.isave := rfl
@[simp] theorem State.setSched_ie (s : State) (v : List (Nat × HostOp)) : (s.setSched v).ie = s.ie := rfl
@[simp] theorem State.setSched_cp (s : State) (v : List (Nat × HostOp)) : (s.setSched v).cp = s.cp := rfl
@[simp] theorem State.setSched_trace (s : State) (v : List (Nat × HostOp)) : (s.setSched v).trace = s.trace := rfl
@[simp] theorem State.setSched_fault (s : State) (v : List (Nat × HostOp)) : (s.setSched v).fault = s.fault := rfl
@[simp] theorem State.setSched_gamma (s : State) (v : List (Nat × HostOp)) : (s.setSched v).gamma = s.gamma := rfl
@[simp] theorem State.setSched_order (s : State) (v : List (Nat × HostOp)) : (s.setSched v).order = s.order := rfl
@[simp] theorem State.setSched_buf (s : State) (v : List (Nat × HostOp)) : (s.setSched v).buf = s.buf := rfl
@[simp] theorem State.setSched_rng (s : State) (v : List (Nat × HostOp)) : (s.setSched v).rng = s.rng := rfl
@[simp] theorem State.setSched_rngOut (s : State) (v : List (Nat × HostOp)) : (s.setSched v).rngOut = s.rngOut := rfl
@[simp] theorem State.setSched_anim (s : State) (v : List (Nat × HostOp)) : (s.setSched v).anim = s.anim := rfl
@[simp] theorem State.setSched_prog (s : State) (v : List (Nat × HostOp)) : (s.setSched v).prog = s.prog := rfl
@[simp] theorem State.setSched_sched (s : State) (v : List (Nat × HostOp)) : (s.setSched v).sched = v := rfl

end Sys2Proof.Machine
end

