-- ==== Sys2Proof/Laws/Ops.lean ====
section
/-! SUPPORT. What each shared operation can do, said once: the two reads, `raise`, the sequencing of a command's steps,
and the checks of hold, hue and brightness. -/

namespace Sys2Proof.Machine

/-- The law of the gamma table (R31, R52). -/
theorem State.gammaRead_zero (s : State) {i : Fin 64} (h : i.val = 0) : s.gammaRead i = 0 := by
  simp [State.gammaRead, h]

/-- A read of the gamma table depends on the table alone. -/
theorem State.gammaRead_congr {s t : State} (h : t.gamma = s.gamma) (i : Fin 64) :
    t.gammaRead i = s.gammaRead i := by
  simp [State.gammaRead, h]

/-- A read of a tabulated sequence. -/
theorem get_tabulate (f : BitVec 4 → Byte) (p : BitVec 4) :
    (tabulate f)[p.toNat]'p.isLt = f p := by
  rcases p with ⟨⟨k, hk⟩⟩
  change k < 16 at hk
  interval_cases k <;> rfl

@[simp] theorem bufHue_mk_tabulate (f : BitVec 4 → Byte) (b : Vector Byte 16) (p : BitVec 4) :
    bufHue ⟨tabulate f, b⟩ p = f p := get_tabulate f p

@[simp] theorem bufBri_mk_tabulate (f : BitVec 4 → Byte) (h : Vector Byte 16) (p : BitVec 4) :
    bufBri ⟨h, tabulate f⟩ p = f p := get_tabulate f p

/-- Two buffers are equal if every position reads the same. -/
theorem PixelBuffer.ext_reads {a b : PixelBuffer} (hh : ∀ p, bufHue a p = bufHue b p)
    (hb : ∀ p, bufBri a p = bufBri b p) : a = b := by
  cases a with | mk ah ab =>
  cases b with | mk bh bb =>
  have eh : ah = bh := by
    apply Vector.ext
    intro i hi
    have := hh (BitVec.ofNat 4 i)
    simpa [bufHue, Nat.mod_eq_of_lt hi] using this
  have eb : ab = bb := by
    apply Vector.ext
    intro i hi
    have := hb (BitVec.ofNat 4 i)
    simpa [bufBri, Nat.mod_eq_of_lt hi] using this
  rw [eh, eb]

/-! ## Sequencing and stopping -/

@[simp] theorem Run.bind_ok (s : State) (f : State → Run) : (Run.ok s).bind f = f s := rfl
@[simp] theorem Run.bind_stop (s : State) (f : State → Run) : (Run.stop s).bind f = .stop s := rfl

theorem Run.bind_assoc (r : Run) (f g : State → Run) :
    (r.bind f).bind g = r.bind fun s => (f s).bind g := by
  cases r <;> rfl

/-- A sequence completes exactly when both parts do. -/
theorem Run.bind_eq_ok {r : Run} {f : State → Run} {t : State} :
    r.bind f = .ok t ↔ ∃ u, r = .ok u ∧ f u = .ok t := by
  cases r <;> simp

/-- A sequence stops where its first part does, or where its second does. -/
theorem Run.bind_eq_stop {r : Run} {f : State → Run} {t : State} :
    r.bind f = .stop t ↔ r = .stop t ∨ ∃ u, r = .ok u ∧ f u = .stop t := by
  cases r <;> simp

/-- What `raise` records in a state without a fault (R221). -/
theorem raise_eq {code : FaultCode} {value : CW} {s : State} (h : s.fault = none) :
    raise code value s = .stop (s.setFault (some ⟨code, s.cp, s.pix, value⟩)) := by
  simp [raise, State.recordFault, h]

/-- A command whose steps all complete (R26). -/
theorem command_ok {body : State → Run} {s t : State} (h : s.fault = none) (hb : body s = .ok t) :
    command body s = .next t.advance := by
  simp [command, h, hb]

/-- A command one of whose steps raised a fault (R221). -/
theorem command_stop {body : State → Run} {s t : State} (h : s.fault = none)
    (hb : body s = .stop t) : command body s = .next t := by
  simp [command, h, hb]

/-- A command in a stopped block (R28). -/
theorem command_stopped {body : State → Run} {s : State} {r : FaultRecord} (h : s.fault = some r) :
    command body s = .fault (.stopped r) := by
  simp [command, h]

/-- Everything a command can do when it answers a next state. -/
theorem command_next {body : State → Run} {s t : State} :
    command body s = .next t ↔
      s.fault = none ∧ ((∃ u, body s = .ok u ∧ t = u.advance) ∨ body s = .stop t) := by
  unfold command
  cases hf : s.fault with
  | some r => simp
  | none =>
    cases hb : body s with
    | ok u => simp [eq_comm]
    | stop u => simp

/-! ## The checks -/

theorem checkHold_held {v : CW} {body : State → Run} {s : State} (h : s.ihold = true) :
    checkHold v body s = body s := by simp [checkHold, h]

theorem checkHold_free {v : CW} {body : State → Run} {s : State} (h : s.ihold = false) :
    checkHold v body s = raise .unprotected v s := by simp [checkHold, h]

theorem checkHue_legal {hue : Byte} {body : State → Run} {s : State} (h : hue.toNat < 192) :
    checkHue hue body s = body s := by simp [checkHue, h]

theorem checkHue_illegal {hue : Byte} {body : State → Run} {s : State} (h : 192 ≤ hue.toNat) :
    checkHue hue body s = raise .hueOutOfRange (byteValue hue) s := by simp [checkHue, h]

theorem checkBri_legal {bri : Byte} {body : State → Run} {s : State} (h : bri.toNat ≤ 6) :
    checkBri bri body s = body s := by simp [checkBri, h]

theorem checkBri_illegal {bri : Byte} {body : State → Run} {s : State} (h : 6 < bri.toNat) :
    checkBri bri body s = raise .brightnessOutOfRange (byteValue bri) s := by simp [checkBri, h]

/-- The begin of a hold (R150). -/
theorem beginHold_free {s : State} (h : s.ihold = false) :
    beginHold s = .ok (((s.setIsave s.ie).setIe false).setIhold true) := by simp [beginHold, h]

theorem beginHold_held {s : State} (h : s.ihold = true) :
    beginHold s = raise .holdMisuse 1 s := by simp [beginHold, h, bitValue]

/-- The end of a hold (R151). -/
theorem endHold_held {s : State} (h : s.ihold = true) :
    endHold s = .ok ((s.setIe s.isave).setIhold false) := by simp [endHold, h]

theorem endHold_free {s : State} (h : s.ihold = false) :
    endHold s = raise .holdMisuse 0 s := by simp [endHold, h, bitValue]

end Sys2Proof.Machine
end

