-- ==== Sys2Proof/Laws/Transmit.lean ====
section
/-! SUPPORT. What the bodies of the transmitting commands do under a hold, in closed form; callers cite these instead of
unfolding the loops. -/

namespace Sys2Proof.Machine

/-- The state after whole bytes have gone out: their events in the trace, the line low, `SR` and `BC` 0. -/
def State.sent (s : State) (l : List Event) : State :=
  { s with line := false, sr := 0, bc := 0, trace := s.trace ++ l }

@[simp] theorem State.sent_ihold (s : State) (l : List Event) : (s.sent l).ihold = s.ihold := rfl
@[simp] theorem State.sent_order (s : State) (l : List Event) : (s.sent l).order = s.order := rfl
@[simp] theorem State.sent_gamma (s : State) (l : List Event) : (s.sent l).gamma = s.gamma := rfl
@[simp] theorem State.sent_buf (s : State) (l : List Event) : (s.sent l).buf = s.buf := rfl
@[simp] theorem State.sent_pix (s : State) (l : List Event) : (s.sent l).pix = s.pix := rfl
@[simp] theorem State.sent_cp (s : State) (l : List Event) : (s.sent l).cp = s.cp := rfl
@[simp] theorem State.sent_fault (s : State) (l : List Event) : (s.sent l).fault = s.fault := rfl

@[simp] theorem State.sent_sent (s : State) (l m : List Event) :
    (s.sent l).sent m = s.sent (l ++ m) := by
  simp [State.sent]

/-- One bit cell under a hold (R100). -/
theorem sendBit_held {v : Bool} {s : State} (h : s.ihold = true) :
    sendBit v s = .ok ((s.setLine false).emit (.pulse v)) := by
  rw [sendBit, checkHold_held h]; rfl

/-- One byte under a hold: the byte law (R103). -/
theorem sendByte_held {value : Byte} {s : State} (h : s.ihold = true) :
    sendByte value s = .ok (s.sent (byteEvents value)) := by
  rw [sendByte, checkHold_held h]
  simp [sendBits, sendBit_held, h, shiftOut, State.sent, byteEvents, State.setLine, State.setSr,
    State.setBc, State.emit]

/-- One pixel of raw channel bytes under a hold (R120). -/
theorem wrColor_held {c : Color} {s : State} (h : s.ihold = true) :
    wrColor c s = .ok (s.sent (colorEvents s.order c)) := by
  rw [wrColor, checkHold_held h]
  simp [sendByte_held, h, colorEvents]

/-- One pixel of a legal hue under a hold (R124). -/
theorem wrHue_held {hue : Byte} {s : State} (h : s.ihold = true) (hh : hue.toNat < 192) :
    wrHue hue s = .ok (s.sent (colorEvents s.order (hueColor hue))) := by
  rw [wrHue, checkHold_held h, checkHue_legal hh, wrColor_held h]

/-- One pixel of a legal hue and brightness under a hold (R127). -/
theorem wrHueBr_held {hue bri : Byte} {s : State} (h : s.ihold = true) (hh : hue.toNat < 192)
    (hb : bri.toNat ≤ 6) :
    wrHueBr hue bri s = .ok (s.sent (colorEvents s.order (hueBrColor s hue bri))) := by
  rw [wrHueBr, checkHold_held h, checkHue_legal hh, checkBri_legal hb, wrColor_held h]

/-! ## The loop of a frame -/

/-- The loop over `m + n` positions is the loop over `m`, then over `n`. -/
theorem framePixels_add (pixel : State → Run) (m n : Nat) (s : State) :
    framePixels pixel (m + n) s = (framePixels pixel m s).bind (framePixels pixel n) := by
  induction m generalizing s with
  | zero => simp [framePixels]
  | succ m ih =>
    rw [Nat.succ_add, framePixels, framePixels, Run.bind_assoc]
    congr 1
    funext t
    exact ih _

theorem pixelsEvents_add (order : Order) (color : Nat → Color) (p m n : Nat) :
    pixelsEvents order color p (m + n)
      = pixelsEvents order color p m ++ pixelsEvents order color (p + m) n := by
  induction m generalizing p with
  | zero => simp [pixelsEvents]
  | succ m ih =>
    rw [Nat.succ_add, pixelsEvents, pixelsEvents, ih, List.append_assoc, Nat.add_right_comm,
      Nat.add_assoc p m 1]

/-- What the pixels of one frame agree on. -/
def SameFrame (s t : State) : Prop :=
  t.ihold = s.ihold ∧ t.order = s.order ∧ t.gamma = s.gamma ∧ t.buf = s.buf

/-- The loop from position `p`, if every pixel on its way completes with the triple `color` gives it (R157). -/
theorem framePixels_sends {pixel : State → Run} {color : Nat → Color} (n p : Nat) {s : State}
    (hp : s.pix = BitVec.ofNat 5 p)
    (hpix : ∀ q, p ≤ q → q < p + (n + 1) → ∀ t, SameFrame s t → t.pix = BitVec.ofNat 5 q →
      pixel t = .ok (t.sent (colorEvents t.order (color q)))) :
    framePixels pixel (n + 1) s
      = .ok ((s.sent (pixelsEvents s.order color p (n + 1))).setPix (BitVec.ofNat 5 (p + (n + 1)))) := by
  induction n generalizing p s with
  | zero =>
    rw [framePixels, hpix p (Nat.le_refl _) (by omega) s ⟨rfl, rfl, rfl, rfl⟩ hp]
    simp [framePixels, pixelsEvents, hp, ← BitVec.ofNat_add]
  | succ n ih =>
    rw [framePixels, hpix p (Nat.le_refl _) (by omega) s ⟨rfl, rfl, rfl, rfl⟩ hp, Run.bind_ok,
      ih (p + 1) (by simp [hp, ← BitVec.ofNat_add])]
    · have hc : p + 1 + (n + 1) = p + (n + 1 + 1) := by omega
      have ho : ((s.sent (colorEvents s.order (color p))).setPix
          ((s.sent (colorEvents s.order (color p))).pix + 1)).order = s.order := rfl
      rw [ho, hc]
      simp [pixelsEvents, State.sent, State.setPix]
    · intro q h1 h2 t ht hq
      refine hpix q (by omega) (by omega) t ?_ hq
      simpa [SameFrame] using ht

end Sys2Proof.Machine
end

