-- ==== Sys2Proof/Laws/Bodies.lean ====
section
/-! SUPPORT. What the body of any command can do, said once (`Ends`): what it keeps, that it only adds events, and what a
fault leaves. Every body is a composition of a few steps, and `Ends` is closed under composition. -/

namespace Sys2Proof.Machine

/-- What no step of a command changes (R26, R30 to R32), and that it only adds to the trace (R27). -/
structure Kept (s t : State) : Prop where
  cp : t.cp = s.cp
  gamma : t.gamma = s.gamma
  order : t.order = s.order
  buf : t.buf = s.buf
  rng : t.rng = s.rng
  rngOut : t.rngOut = s.rngOut
  anim : t.anim = s.anim
  prog : t.prog = s.prog
  sched : t.sched = s.sched
  grows : ∃ l, t.trace = s.trace ++ l

theorem Kept.refl (s : State) : Kept s s :=
  ⟨rfl, rfl, rfl, rfl, rfl, rfl, rfl, rfl, rfl, [], by simp⟩

theorem Kept.trans {s t u : State} (h : Kept s t) (k : Kept t u) : Kept s u := by
  obtain ⟨l, hl⟩ := h.grows
  obtain ⟨m, hm⟩ := k.grows
  exact ⟨k.cp.trans h.cp, k.gamma.trans h.gamma, k.order.trans h.order, k.buf.trans h.buf,
    k.rng.trans h.rng, k.rngOut.trans h.rngOut, k.anim.trans h.anim, k.prog.trans h.prog,
    k.sched.trans h.sched, l ++ m, by simp [hm, hl]⟩

/-- How the steps of a command, begun in `s`, may end: completed with no new fault, or stopped with the record of
`raise` (R221). -/
def Ends (s : State) : Run → Prop
  | .ok t => Kept s t ∧ t.fault = s.fault
  | .stop t => Kept s t ∧ ∃ code value, t.fault = match s.fault with
      | none => some ⟨code, s.cp, t.pix, value⟩
      | some r => some r

theorem Ends.bind {s : State} {r : Run} {f : State → Run} (h : Ends s r)
    (hf : ∀ t, r = .ok t → Ends t (f t)) : Ends s (r.bind f) := by
  cases r with
  | stop t => exact h
  | ok t =>
    obtain ⟨hk, hfault⟩ := h
    have h2 := hf t rfl
    rw [Run.bind_ok]
    cases hr : f t with
    | ok u =>
      rw [hr] at h2
      exact ⟨hk.trans h2.1, h2.2.trans hfault⟩
    | stop u =>
      rw [hr] at h2
      obtain ⟨hk2, code, value, hv⟩ := h2
      exact ⟨hk.trans hk2, code, value, by rw [hv, hfault, hk.cp]⟩

theorem ends_raise (code : FaultCode) (value : CW) (s : State) : Ends s (raise code value s) :=
  ⟨⟨rfl, rfl, rfl, rfl, rfl, rfl, rfl, rfl, rfl, [], by simp [State.recordFault]⟩, code, value, rfl⟩

theorem ends_checkHold {v : CW} {body : State → Run} {s : State} (h : Ends s (body s)) :
    Ends s (checkHold v body s) := by
  unfold checkHold
  split
  · exact h
  · exact ends_raise _ _ _

theorem ends_checkHue {v : Byte} {body : State → Run} {s : State} (h : Ends s (body s)) :
    Ends s (checkHue v body s) := by
  unfold checkHue
  split
  · exact ends_raise _ _ _
  · exact h

theorem ends_checkBri {v : Byte} {body : State → Run} {s : State} (h : Ends s (body s)) :
    Ends s (checkBri v body s) := by
  unfold checkBri
  split
  · exact ends_raise _ _ _
  · exact h

theorem ends_sendBit (v : Bool) (s : State) : Ends s (sendBit v s) :=
  ends_checkHold ⟨⟨rfl, rfl, rfl, rfl, rfl, rfl, rfl, rfl, rfl, [.pulse v], rfl⟩, rfl⟩

theorem ends_sendByte (v : Byte) (s : State) : Ends s (sendByte v s) := by
  cases h : s.ihold with
  | true =>
    rw [sendByte_held h]
    exact ⟨⟨rfl, rfl, rfl, rfl, rfl, rfl, rfl, rfl, rfl, byteEvents v, rfl⟩, rfl⟩
  | false =>
    rw [sendByte, checkHold_free h]
    exact ends_raise _ _ _

theorem ends_latchGap (s : State) : Ends s (latchGap s) :=
  ⟨⟨rfl, rfl, rfl, rfl, rfl, rfl, rfl, rfl, rfl, [.latch], rfl⟩, rfl⟩

theorem ends_wrColor (c : Color) (s : State) : Ends s (wrColor c s) :=
  ends_checkHold (((ends_sendByte _ _).bind fun _ _ => ends_sendByte _ _).bind
    fun _ _ => ends_sendByte _ _)

theorem ends_wrHue (hue : Byte) (s : State) : Ends s (wrHue hue s) :=
  ends_checkHold (ends_checkHue (ends_wrColor _ _))

theorem ends_wrHueBr (hue bri : Byte) (s : State) : Ends s (wrHueBr hue bri s) :=
  ends_checkHold (ends_checkHue (ends_checkBri (ends_wrColor _ _)))

theorem ends_beginHold (s : State) : Ends s (beginHold s) := by
  unfold beginHold
  split
  · exact ends_raise _ _ _
  · exact ⟨⟨rfl, rfl, rfl, rfl, rfl, rfl, rfl, rfl, rfl, [], by simp⟩, rfl⟩

theorem ends_endHold (s : State) : Ends s (endHold s) := by
  unfold endHold
  split
  · exact ⟨⟨rfl, rfl, rfl, rfl, rfl, rfl, rfl, rfl, rfl, [], by simp⟩, rfl⟩
  · exact ends_raise _ _ _

/-- A step that only moves `PIX` first. -/
theorem ends_after_setPix {s : State} {v : BitVec 5} {r : Run} (h : Ends (s.setPix v) r) :
    Ends s r :=
  Ends.bind (r := .ok (s.setPix v)) (f := fun _ => r)
    ⟨⟨rfl, rfl, rfl, rfl, rfl, rfl, rfl, rfl, rfl, [], by simp⟩, rfl⟩
    fun t ht => by cases ht; exact h

theorem ends_framePixels {pixel : State → Run} (hp : ∀ s, Ends s (pixel s)) (n : Nat) (s : State) :
    Ends s (framePixels pixel n s) := by
  induction n generalizing s with
  | zero => exact ⟨Kept.refl s, rfl⟩
  | succ n ih => exact (hp s).bind fun t _ => ends_after_setPix (ih _)

theorem ends_frame {pixel : State → Run} (hp : ∀ s, Ends s (pixel s)) (s : State) :
    Ends s (frame pixel s) :=
  ((ends_beginHold s).bind fun _ _ => ends_after_setPix (ends_framePixels hp _ _)).bind
    fun _ _ => ends_endHold _

theorem ends_reactivePixel (pos : BitVec 4) (hue : Byte) (s : State) :
    Ends s (reactivePixel pos hue s) := by
  unfold reactivePixel
  split
  · exact ends_wrHue _ _
  · exact ends_wrColor _ _

theorem ends_ambientPixel (s : State) : Ends s (ambientPixel s) := ends_wrHueBr _ _ _

/-- The body of every command: `exec` is `command` of it. -/
def bodyOf : Instr → State → Run
  | .sendbit v => sendBit v
  | .sendbyte v => sendByte v
  | .wrcolor r g b => wrColor ⟨r, g, b⟩
  | .wrhue hue => wrHue hue
  | .wrhuebr hue bri => wrHueBr hue bri
  | .latch => latchGap
  | .ihold => beginHold
  | .irel => endHold
  | .framer pos hue => frame (reactivePixel pos hue)
  | .framea => frame ambientPixel

theorem exec_eq_command (i : Instr) (s : State) : exec i s = command (bodyOf i) s := by
  cases i <;> rfl

/-- A command that completes (R26). -/
theorem exec_ok {i : Instr} {s t : State} (h : s.fault = none) (hb : bodyOf i s = .ok t) :
    exec i s = .next t.advance := by
  rw [exec_eq_command, command_ok h hb]

/-- A command that raises a fault (R221). -/
theorem exec_stop {i : Instr} {s t : State} (h : s.fault = none) (hb : bodyOf i s = .stop t) :
    exec i s = .next t := by
  rw [exec_eq_command, command_stop h hb]

/-- Everything a command can do when it answers a next state. -/
theorem exec_next {i : Instr} {s t : State} :
    exec i s = .next t ↔
      s.fault = none ∧ ((∃ u, bodyOf i s = .ok u ∧ t = u.advance) ∨ bodyOf i s = .stop t) := by
  rw [exec_eq_command, command_next]

/-- Every command's body ends as `Ends` says. -/
theorem ends_bodyOf (i : Instr) (s : State) : Ends s (bodyOf i s) := by
  cases i with
  | sendbit v => exact ends_sendBit v s
  | sendbyte v => exact ends_sendByte v s
  | wrcolor r g b => exact ends_wrColor _ s
  | wrhue hue => exact ends_wrHue hue s
  | wrhuebr hue bri => exact ends_wrHueBr hue bri s
  | latch => exact ends_latchGap s
  | ihold => exact ends_beginHold s
  | irel => exact ends_endHold s
  | framer pos hue => exact ends_frame (ends_reactivePixel pos hue) s
  | framea => exact ends_frame ends_ambientPixel s

end Sys2Proof.Machine
end

