-- ==== Sys2Proof/Laws/Commute.lean ====
section
/-! SUPPORT. A command does the same whatever a field holds that it does not read: changing that field commutes with the
command's body. -/

namespace Sys2Proof.Machine

/-- The same change on either ending of a command's steps. -/
def Run.mapState (m : State → State) : Run → Run
  | .ok s => .ok (m s)
  | .stop s => .stop (m s)

/-- The change `m` leaves alone every register of the block, and commutes with writing them. -/
structure Unread (m : State → State) : Prop where
  sr : ∀ s, (m s).sr = s.sr
  bc : ∀ s, (m s).bc = s.bc
  pix : ∀ s, (m s).pix = s.pix
  ihold : ∀ s, (m s).ihold = s.ihold
  isave : ∀ s, (m s).isave = s.isave
  ie : ∀ s, (m s).ie = s.ie
  cp : ∀ s, (m s).cp = s.cp
  fault : ∀ s, (m s).fault = s.fault
  order : ∀ s, (m s).order = s.order
  setLine : ∀ s v, (m s).setLine v = m (s.setLine v)
  setSr : ∀ s v, (m s).setSr v = m (s.setSr v)
  setBc : ∀ s v, (m s).setBc v = m (s.setBc v)
  setPix : ∀ s v, (m s).setPix v = m (s.setPix v)
  setIhold : ∀ s v, (m s).setIhold v = m (s.setIhold v)
  setIsave : ∀ s v, (m s).setIsave v = m (s.setIsave v)
  setIe : ∀ s v, (m s).setIe v = m (s.setIe v)
  emit : ∀ s e, (m s).emit e = m (s.emit e)
  setFault : ∀ s r, (m s).setFault r = m (s.setFault r)
  advance : ∀ s, (m s).advance = m s.advance

theorem unread_sched (l : List (Nat × HostOp)) : Unread fun s => { s with sched := l } := by
  constructor <;> intros <;> rfl
theorem unread_buf (b : PixelBuffer) : Unread fun s => { s with buf := b } := by
  constructor <;> intros <;> rfl
theorem unread_gamma (g : Vector Byte 64) : Unread fun s => { s with gamma := g } := by
  constructor <;> intros <;> rfl

theorem Run.bind_mapState {m : State → State} {r r' : Run} {f : State → Run}
    (h : r' = r.mapState m) (hf : ∀ t, f (m t) = (f t).mapState m) :
    r'.bind f = (r.bind f).mapState m := by
  subst h
  cases r with
  | ok t => exact hf t
  | stop t => rfl

section

variable {m : State → State} (B : Unread m)
include B

theorem raise_unread (code : FaultCode) (value : CW) (s : State) :
    raise code value (m s) = (raise code value s).mapState m := by
  simp [raise, State.recordFault, B.setFault, B.fault, B.cp, B.pix, Run.mapState]

theorem checkHold_unread {v : CW} {body : State → Run} {s : State}
    (h : body (m s) = (body s).mapState m) :
    checkHold v body (m s) = (checkHold v body s).mapState m := by
  unfold checkHold
  rw [B.ihold]
  split
  · exact h
  · exact raise_unread B _ _ _

theorem checkHue_unread {v : Byte} {body : State → Run} {s : State}
    (h : body (m s) = (body s).mapState m) :
    checkHue v body (m s) = (checkHue v body s).mapState m := by
  unfold checkHue
  split
  · exact raise_unread B _ _ _
  · exact h

theorem checkBri_unread {v : Byte} {body : State → Run} {s : State}
    (h : body (m s) = (body s).mapState m) :
    checkBri v body (m s) = (checkBri v body s).mapState m := by
  unfold checkBri
  split
  · exact raise_unread B _ _ _
  · exact h

theorem sendBit_unread (v : Bool) (s : State) : sendBit v (m s) = (sendBit v s).mapState m :=
  checkHold_unread B (by simp [B.setLine, B.emit, Run.mapState])

theorem sendBits_unread (n : Nat) (s : State) : sendBits n (m s) = (sendBits n s).mapState m := by
  induction n generalizing s with
  | zero => rfl
  | succ n ih =>
    rw [sendBits, sendBits, B.sr]
    refine Run.bind_mapState (sendBit_unread B _ _) fun t => ?_
    have h : shiftOut (m t) = m (shiftOut t) := by simp [shiftOut, B.sr, B.setSr, B.setBc, B.bc]
    rw [h, ih]

theorem sendByte_unread (v : Byte) (s : State) : sendByte v (m s) = (sendByte v s).mapState m :=
  checkHold_unread B (by simp only [B.setSr, B.setBc]; exact sendBits_unread B _ _)

theorem wrColor_unread (c : Color) (s : State) : wrColor c (m s) = (wrColor c s).mapState m :=
  checkHold_unread B (by
    simp only [B.order]
    exact Run.bind_mapState (Run.bind_mapState (sendByte_unread B _ _) (sendByte_unread B _))
      (sendByte_unread B _))

theorem wrHue_unread (hue : Byte) (s : State) : wrHue hue (m s) = (wrHue hue s).mapState m :=
  checkHold_unread B (checkHue_unread B (wrColor_unread B _ _))

theorem wrHueBr_unread (hg : ∀ s i, (m s).gammaRead i = s.gammaRead i) (hue bri : Byte)
    (s : State) : wrHueBr hue bri (m s) = (wrHueBr hue bri s).mapState m :=
  checkHold_unread B (checkHue_unread B (checkBri_unread B (by
    have h : hueBrColor (m s) hue bri = hueBrColor s hue bri := by simp [hueBrColor, hg]
    simp only [h]
    exact wrColor_unread B _ _)))

theorem beginHold_unread (s : State) : beginHold (m s) = (beginHold s).mapState m := by
  unfold beginHold
  rw [B.ihold]
  split
  · exact raise_unread B _ _ _
  · simp [B.ie, B.setIsave, B.setIe, B.setIhold, Run.mapState]

theorem endHold_unread (s : State) : endHold (m s) = (endHold s).mapState m := by
  unfold endHold
  rw [B.ihold]
  split
  · simp [B.isave, B.setIe, B.setIhold, Run.mapState]
  · exact raise_unread B _ _ _

theorem framePixels_unread {pixel : State → Run} (hp : ∀ s, pixel (m s) = (pixel s).mapState m)
    (n : Nat) (s : State) : framePixels pixel n (m s) = (framePixels pixel n s).mapState m := by
  induction n generalizing s with
  | zero => rfl
  | succ n ih => exact Run.bind_mapState (hp s) fun t => by rw [B.pix, B.setPix, ih]

theorem frame_unread {pixel : State → Run} (hp : ∀ s, pixel (m s) = (pixel s).mapState m)
    (s : State) : frame pixel (m s) = (frame pixel s).mapState m :=
  Run.bind_mapState
    (Run.bind_mapState (beginHold_unread B s) fun t => by
      rw [B.setPix]; exact framePixels_unread B hp _ _)
    (endHold_unread B)

theorem reactivePixel_unread (pos : BitVec 4) (hue : Byte) (s : State) :
    reactivePixel pos hue (m s) = (reactivePixel pos hue s).mapState m := by
  unfold reactivePixel
  rw [B.pix]
  split
  · exact wrHue_unread B _ _
  · exact wrColor_unread B _ _

theorem ambientPixel_unread (hg : ∀ s i, (m s).gammaRead i = s.gammaRead i)
    (hb : ∀ s, (m s).buf = s.buf) (s : State) :
    ambientPixel (m s) = (ambientPixel s).mapState m := by
  unfold ambientPixel
  simp only [State.pixRead, B.pix, hb]
  exact wrHueBr_unread B hg _ _ _

/-- Every body commutes with a change of what it does not read: the gamma table is read by `WRHUEBR` and `FRAMEA`, the
buffer by `FRAMEA` (R50). -/
theorem bodyOf_unread (i : Instr)
    (hg : (∀ s i, (m s).gammaRead i = s.gammaRead i) ∨ (∀ h b, i ≠ .wrhuebr h b) ∧ i ≠ .framea)
    (hb : (∀ s, (m s).buf = s.buf) ∨ i ≠ .framea) (s : State) :
    bodyOf i (m s) = (bodyOf i s).mapState m := by
  cases i with
  | sendbit v => exact sendBit_unread B _ _
  | sendbyte v => exact sendByte_unread B _ _
  | wrcolor r g b => exact wrColor_unread B _ _
  | wrhue h => exact wrHue_unread B _ _
  | wrhuebr h b =>
    rcases hg with hg | hg
    · exact wrHueBr_unread B hg _ _ _
    · exact absurd rfl (hg.1 h b)
  | latch => simp [bodyOf, latchGap, B.emit, Run.mapState]
  | ihold => exact beginHold_unread B _
  | irel => exact endHold_unread B _
  | framer pos hue => exact frame_unread B (reactivePixel_unread B pos hue) s
  | framea =>
    rcases hb with hb | hb
    · rcases hg with hg | hg
      · exact frame_unread B (ambientPixel_unread B hg hb) s
      · exact absurd rfl hg.2
    · exact absurd rfl hb

theorem command_unread {body : State → Run} {s t : State} (h : body (m s) = (body s).mapState m)
    (he : command body s = .next t) : command body (m s) = .next (m t) := by
  rw [command_next] at *
  obtain ⟨hf, ⟨u, hu, rfl⟩ | hs⟩ := he
  · exact ⟨by rw [B.fault, hf], .inl ⟨m u, by rw [h, hu]; rfl, by rw [B.advance]⟩⟩
  · exact ⟨by rw [B.fault, hf], .inr (by rw [h, hs]; rfl)⟩

end

end Sys2Proof.Machine
end

