-- ==== Sys2Proof/Laws/Encoding.lean ====
section
/-! SUPPORT. A command word as its four bytes: the small facts with which statements over words become statements over
bytes. -/

namespace Sys2Proof

/-- A word is made of its four fields (R80). -/
theorem wordOf_fields (w : CW) : wordOf (fieldOp w) (fieldA w) (fieldB w) (fieldC w) = w := by
  unfold wordOf fieldOp fieldA fieldB fieldC
  apply BitVec.eq_of_getLsbD_eq
  intro i hi
  simp only [BitVec.getLsbD_append, BitVec.getLsbD_extractLsb']
  interval_cases i <;> simp

/-- The fields of a word made of four bytes are those bytes (R80). -/
theorem fields_wordOf (a b c d : Byte) :
    fieldOp (wordOf a b c d) = a ∧ fieldA (wordOf a b c d) = b ∧ fieldB (wordOf a b c d) = c ∧
      fieldC (wordOf a b c d) = d := by
  unfold wordOf fieldOp fieldA fieldB fieldC
  refine ⟨?_, ?_, ?_, ?_⟩ <;>
  · apply BitVec.eq_of_getLsbD_eq
    intro i hi
    simp only [BitVec.getLsbD_append, BitVec.getLsbD_extractLsb']
    interval_cases i <;> simp

@[simp] theorem fieldOp_wordOf (a b c d : Byte) : fieldOp (wordOf a b c d) = a :=
  (fields_wordOf a b c d).1
@[simp] theorem fieldA_wordOf (a b c d : Byte) : fieldA (wordOf a b c d) = b :=
  (fields_wordOf a b c d).2.1
@[simp] theorem fieldB_wordOf (a b c d : Byte) : fieldB (wordOf a b c d) = c :=
  (fields_wordOf a b c d).2.2.1
@[simp] theorem fieldC_wordOf (a b c d : Byte) : fieldC (wordOf a b c d) = d :=
  (fields_wordOf a b c d).2.2.2

/-- Two words are the same word exactly when their four bytes are. -/
theorem wordOf_inj {a b c d a' b' c' d' : Byte} :
    wordOf a b c d = wordOf a' b' c' d' ↔ a = a' ∧ b = b' ∧ c = c' ∧ d = d' := by
  constructor
  · intro h
    refine ⟨?_, ?_, ?_, ?_⟩
    · simpa using congrArg fieldOp h
    · simpa using congrArg fieldA h
    · simpa using congrArg fieldB h
    · simpa using congrArg fieldC h
  · rintro ⟨rfl, rfl, rfl, rfl⟩
    rfl

/-- Masking a word masks its bytes. -/
theorem wordOf_and (a b c d a' b' c' d' : Byte) :
    wordOf a b c d &&& wordOf a' b' c' d' = wordOf (a &&& a') (b &&& b') (c &&& c') (d &&& d') := by
  apply BitVec.eq_of_getLsbD_eq
  intro i hi
  simp only [wordOf, BitVec.getLsbD_and, BitVec.getLsbD_append]
  interval_cases i <;> simp

/-- A row of R82, byte by byte. -/
theorem matchesWord_wordOf (a b c d pa pb pc pd ma mb mc md : Byte) :
    CommandRow.matchesWord ⟨wordOf pa pb pc pd, wordOf ma mb mc md⟩ (wordOf a b c d) = true ↔
      (a &&& ma = pa ∧ b &&& mb = pb ∧ c &&& mc = pc ∧ d &&& md = pd) := by
  rw [CommandRow.matchesWord, beq_iff_eq, wordOf_and, wordOf_inj]

theorem whenZero_ok {op : Byte} {z : Bool} {i j : Instr} :
    whenZero op z i = .ok j ↔ z = true ∧ i = j := by
  unfold whenZero
  split <;> simp_all

end Sys2Proof
end

