-- ==== Sys2Proof/Laws/Frames.lean ====
section
/-! SUPPORT. The whole frame, in its two endings: all sixteen pixels go out, or the first bad one freezes it (R157,
R160). -/

namespace Sys2Proof.Machine

/-- A frame whose sixteen pixels all complete (R157). -/
theorem frame_sends {pixel : State → Run} {color : Nat → Color} {s : State} (h : s.ihold = false)
    (hpix : ∀ q, q < 16 → ∀ t, t.ihold = true → t.order = s.order → t.gamma = s.gamma →
      t.buf = s.buf → t.pix = BitVec.ofNat 5 q →
      pixel t = .ok (t.sent (colorEvents t.order (color q)))) :
    frame pixel s = .ok ((((s.sent (frameEvents s.order color)).setIsave s.ie).setPix 16)) := by
  rw [frame, beginHold_free h, Run.bind_ok,
    framePixels_sends (color := color) 15 0 (by rfl)
      (fun q _ h2 t ht hq => hpix q (by omega) t (by simpa using ht.1) (by simpa using ht.2.1)
        (by simpa using ht.2.2.1) (by simpa using ht.2.2.2) hq),
    Run.bind_ok, endHold_held (by rfl)]
  simp [State.sent, State.setPix, State.setIsave, State.setIe, State.setIhold, frameEvents, h]

/-- A frame whose pixel `p` stops after the ones before it completed (R160): the hold stays. The record is what the
stopping pixel's `raise` makes it, in the state `t` the loop has reached. -/
theorem frame_stops {pixel : State → Run} {color : Nat → Color} {s : State} (p : Nat) (hp : p < 16)
    (h : s.ihold = false) (hl : s.line = false) (hs : s.sr = 0) (hb : s.bc = 0)
    (hpix : ∀ q, q < p → ∀ t, t.ihold = true → t.order = s.order → t.gamma = s.gamma →
      t.buf = s.buf → t.pix = BitVec.ofNat 5 q →
      pixel t = .ok (t.sent (colorEvents t.order (color q))))
    {code : FaultCode} {value : CW}
    (hstop : ∀ t, t.ihold = true → t.buf = s.buf → t.pix = BitVec.ofNat 5 p →
      pixel t = raise code value t) :
    frame pixel s = raise code value
      { s with
        pix := BitVec.ofNat 5 p, isave := s.ie, ie := false, ihold := true
        trace := s.trace ++ pixelsEvents s.order color 0 p } := by
  rw [frame, beginHold_free h, Run.bind_ok]
  have hn : Config.npix = p + ((15 - p) + 1) := by simp only [Config.npix]; omega
  rw [hn, framePixels_add]
  have hloop : framePixels pixel p (((((s.setIsave s.ie).setIe false).setIhold true)).setPix 0)
      = .ok { s with
        pix := BitVec.ofNat 5 p, isave := s.ie, ie := false, ihold := true
        trace := s.trace ++ pixelsEvents s.order color 0 p } := by
    cases p with
    | zero =>
      simp [framePixels, pixelsEvents, State.setIsave, State.setIe, State.setIhold, State.setPix]
    | succ n =>
      rw [framePixels_sends (color := color) n 0 (by rfl)
        (fun q _ h2 t ht hq => hpix q (by omega) t (by simpa using ht.1) (by simpa using ht.2.1)
          (by simpa using ht.2.2.1) (by simpa using ht.2.2.2) hq)]
      simp [State.sent, State.setPix, State.setIsave, State.setIe, State.setIhold, hl, hs, hb]
  rw [hloop, Run.bind_ok, framePixels]
  generalize hu : ({ s with
        pix := BitVec.ofNat 5 p, isave := s.ie, ie := false, ihold := true
        trace := s.trace ++ pixelsEvents s.order color 0 p } : State) = u
  rw [hstop u (by rw [← hu]) (by rw [← hu]) (by rw [← hu])]
  rfl

/-- `FRAMER`'s pixel at position `q` under a hold, for a legal hue (R154). -/
theorem reactivePixel_sends {pos : BitVec 4} {hue : Byte} (hh : hue.toNat < 192) {q : Nat}
    (hq : q < 16) {t : State} (ht : t.ihold = true) (hp : t.pix = BitVec.ofNat 5 q) :
    reactivePixel pos hue t = .ok (t.sent (colorEvents t.order (reactiveColor pos hue q))) := by
  have key : (t.pix = pos.setWidth 5) ↔ q = pos.toNat := by
    rw [hp]
    constructor
    · intro h
      have := congrArg BitVec.toNat h
      simp only [BitVec.toNat_ofNat, BitVec.toNat_setWidth] at this
      have := pos.isLt
      omega
    · rintro rfl
      apply BitVec.eq_of_toNat_eq
      simp
  unfold reactivePixel reactiveColor
  by_cases hc : q = pos.toNat
  · rw [if_pos (key.2 hc), if_pos hc, wrHue_held ht hh]
  · rw [if_neg (mt key.1 hc), if_neg hc, wrColor_held ht]

/-- The position `FRAMEA` reads at position `q` of the loop (R161). -/
theorem framePosition (q : Nat) :
    (BitVec.ofNat 5 q).setWidth 4 = BitVec.ofNat 4 q := by
  apply BitVec.eq_of_toNat_eq
  simp only [BitVec.toNat_setWidth, BitVec.toNat_ofNat]
  omega

/-- A scaled pixel depends on the gamma table alone. -/
theorem hueBrColor_congr {s t : State} (h : t.gamma = s.gamma) (hue bri : Byte) :
    hueBrColor t hue bri = hueBrColor s hue bri := by
  simp [hueBrColor, State.gammaRead_congr h]

/-- `FRAMEA`'s pixel at position `q` under a hold, for a legal entry (R155). -/
theorem ambientPixel_sends {s : State} {q : Nat}
    (hl : pixelLegal s.buf (BitVec.ofNat 4 q) = true) {t : State} (ht : t.ihold = true)
    (hg : t.gamma = s.gamma) (hb : t.buf = s.buf) (hp : t.pix = BitVec.ofNat 5 q) :
    ambientPixel t = .ok (t.sent (colorEvents t.order (ambientColor s q))) := by
  simp only [pixelLegal, Bool.and_eq_true, decide_eq_true_eq] at hl
  rw [ambientPixel]
  simp only [State.pixRead, hp, framePosition q, hb]
  rw [wrHueBr_held ht hl.1 hl.2, hueBrColor_congr hg]
  rfl

end Sys2Proof.Machine
end

