-- ==== Sys2Proof/Laws/Host.lean ====
section
/-! SUPPORT. What the host's operations can do, said once: issuing commands, drawing from the generator, the rendering
action and the rainbow fill, and what every operation leaves alone. -/

namespace Sys2Proof.Machine

/-! ## Issuing commands -/

@[simp] theorem issue_line (c a) (s : State) : (issue c a s).line = s.line := rfl
@[simp] theorem issue_sr (c a) (s : State) : (issue c a s).sr = s.sr := rfl
@[simp] theorem issue_bc (c a) (s : State) : (issue c a s).bc = s.bc := rfl
@[simp] theorem issue_pix (c a) (s : State) : (issue c a s).pix = s.pix := rfl
@[simp] theorem issue_ihold (c a) (s : State) : (issue c a s).ihold = s.ihold := rfl
@[simp] theorem issue_isave (c a) (s : State) : (issue c a s).isave = s.isave := rfl
@[simp] theorem issue_ie (c a) (s : State) : (issue c a s).ie = s.ie := rfl
@[simp] theorem issue_cp (c a) (s : State) : (issue c a s).cp = s.cp := rfl
@[simp] theorem issue_trace (c a) (s : State) : (issue c a s).trace = s.trace := rfl
@[simp] theorem issue_fault (c a) (s : State) : (issue c a s).fault = s.fault := rfl
@[simp] theorem issue_gamma (c a) (s : State) : (issue c a s).gamma = s.gamma := rfl
@[simp] theorem issue_order (c a) (s : State) : (issue c a s).order = s.order := rfl
@[simp] theorem issue_buf (c a) (s : State) : (issue c a s).buf = s.buf := rfl
@[simp] theorem issue_rng (c a) (s : State) : (issue c a s).rng = s.rng := rfl
@[simp] theorem issue_rngOut (c a) (s : State) : (issue c a s).rngOut = s.rngOut := rfl
@[simp] theorem issue_anim (c a) (s : State) : (issue c a s).anim = s.anim := rfl
@[simp] theorem issue_prog (c a) (s : State) :
    (issue c a s).prog = s.prog.take s.cp ++ c.map encode ++ s.prog.drop s.cp := rfl
@[simp] theorem issue_sched (c a) (s : State) :
    (issue c a s).sched = a ++ s.sched.map fun e => (max e.1 s.cp + c.length, e.2) := rfl

/-- The `k`-th command issued stands at `CP + k`. -/
theorem issue_at {l : List Instr} {a : List (Nat × HostOp)} {s : State} (h : s.cp ≤ s.prog.length)
    {k : Nat} {i : Instr} (hk : l[k]? = some i) :
    (issue l a s).prog[s.cp + k]? = some (encode i) := by
  have hl : (s.prog.take s.cp).length = s.cp := by simpa using h
  have hc : k < l.length := (List.getElem?_eq_some_iff.1 hk).1
  rw [issue_prog, List.append_assoc, List.getElem?_append_right (by omega), hl,
    Nat.add_sub_cancel_left, List.getElem?_append_left (by simpa using hc), List.getElem?_map, hk]
  rfl

/-- What the host had still to do waits until the issued commands are done. -/
theorem issue_later {l : List Instr} {a : List (Nat × HostOp)} {s : State} (hl : l ≠ [])
    (ha : ∀ e ∈ a, s.cp < e.1) : ∀ e ∈ (issue l a s).sched, (issue l a s).cp < e.1 := by
  intro e he
  rw [issue_sched, List.mem_append] at he
  rw [issue_cp]
  rcases he with he | he
  · exact ha e he
  · obtain ⟨f, -, rfl⟩ := List.mem_map.1 he
    have : 0 < l.length := List.length_pos_iff.2 hl
    simp only
    omega

/-! ## The generator -/

/-- Drawing any number of times advances the register as often, leaves the last result as the output, and touches nothing
else (R182). -/
theorem drawAll_eq (l : List Nat) (s : State) :
    drawAll l s = (s.setRng (lfsrAdvance^[l.length] s.rng)).setRngOut
      (l.getLast?.elim s.rngOut fun k => (lfsrAdvance^[l.length] s.rng).toNat % (k + 1)) := by
  induction l generalizing s with
  | nil => rfl
  | cons k l ih =>
    refine (ih (randomNext (k + 1) s)).trans ?_
    cases l with
    | nil => rfl
    | cons j l =>
      rw [List.getLast?_cons_cons]
      obtain ⟨m, hm⟩ := Option.ne_none_iff_exists'.1 (mt List.getLast?_eq_none_iff.1 (List.cons_ne_nil j l))
      rw [hm]
      rfl

/-- A bit of the register after one advance (R182). -/
theorem lfsrAdvance_bit (v : BitVec 16) {k : Nat} :
    (lfsrAdvance v).getLsbD k
      = ((v.getLsbD (k + 1)) ^^ (v.getLsbD 0 && (0xB400#16).getLsbD k)) := by
  unfold lfsrAdvance
  split <;> rename_i h
  · rw [h]; simp [Nat.add_comm 1 k]
  · rw [Bool.not_eq_true] at h; rw [h]; simp [Nat.add_comm 1 k]

/-- The register becomes 0 only from 0 (R183). -/
theorem lfsrAdvance_eq_zero {v : BitVec 16} : lfsrAdvance v = 0 ↔ v = 0 := by
  constructor
  · intro h
    have hb : ∀ k, ((v.getLsbD (k + 1)) ^^ (v.getLsbD 0 && (0xB400#16).getLsbD k)) = false ∨ 16 ≤ k := by
      intro k
      rcases Nat.lt_or_ge k 16 with hk | hk
      · left; rw [← lfsrAdvance_bit v, h]; simp
      · exact .inr hk
    have h0 : v.getLsbD 0 = false := by
      have hz : v.getLsbD 16 = false := BitVec.getLsbD_of_ge _ _ (by decide)
      simpa [hz] using hb 15
    apply BitVec.eq_of_getLsbD_eq
    intro i hi
    cases i with
    | zero => simpa using h0
    | succ n =>
      rcases hb n with h | h
      · rw [h0] at h; simpa using h
      · omega
  · rintro rfl; decide

/-- The same after any number of advances. -/
theorem lfsrAdvance_iterate_eq_zero (n : Nat) {v : BitVec 16} : lfsrAdvance^[n] v = 0 ↔ v = 0 := by
  induction n generalizing v with
  | zero => rfl
  | succ n ih => rw [Function.iterate_succ_apply, ih, lfsrAdvance_eq_zero]

/-! ## The rendering action -/

theorem wrapHue_toNat (h : Byte) : (wrapHue h).toNat = h.toNat % 192 := by
  simp only [wrapHue, Config.hueMod, BitVec.toNat_ofNat]
  omega

theorem wrapHue_lt (h : Byte) : (wrapHue h).toNat < 192 := by
  rw [wrapHue_toNat]; omega

theorem clampBri_le (b : Byte) : (clampBri b).toNat ≤ 6 := by
  unfold clampBri
  split
  · decide
  · simp only [Config.briMax] at *; omega

@[simp] theorem bufHue_bufLegal (b : PixelBuffer) (p : BitVec 4) :
    bufHue (bufLegal b) p = wrapHue (bufHue b p) := by simp [bufLegal]

@[simp] theorem bufBri_bufLegal (b : PixelBuffer) (p : BitVec 4) :
    bufBri (bufLegal b) p = clampBri (bufBri b p) := by simp [bufLegal]

@[simp] theorem bufHue_bufWrite (p : BitVec 4) (h b : Byte) (c : PixelBuffer) (q : BitVec 4) :
    bufHue (bufWrite p h b c) q = if q = p then h else bufHue c q := by simp [bufWrite]

@[simp] theorem bufBri_bufWrite (p : BitVec 4) (h b : Byte) (c : PixelBuffer) (q : BitVec 4) :
    bufBri (bufWrite p h b c) q = if q = p then b else bufBri c q := by simp [bufWrite]

/-- The fill never touches a brightness (R199). -/
theorem rainbowFill_bri (l : List (BitVec 4)) (c : PixelBuffer × Byte) (q : BitVec 4) :
    bufBri (rainbowFill l c).1 q = bufBri c.1 q := by
  induction l generalizing c with
  | nil => rfl
  | cons p l ih =>
    rw [rainbowFill, List.foldl_cons]
    refine (ih _).trans ?_
    by_cases h : q = p
    · subst h; simp [rainbowPixel]
    · simp [rainbowPixel, h]

/-- Every pixel takes `hue1` one step on, wrapping at 256 (R199). -/
theorem rainbowFill_hue1 (l : List (BitVec 4)) (c : PixelBuffer × Byte) :
    (rainbowFill l c).2 = c.2 + BitVec.ofNat 8 l.length * Config.rainbowStep := by
  induction l generalizing c with
  | nil => simp [rainbowFill]
  | cons p l ih =>
    rw [rainbowFill, List.foldl_cons]
    refine (ih _).trans ?_
    simp only [rainbowPixel, List.length_cons, BitVec.ofNat_add, BitVec.add_mul, BitVec.one_mul]
    ac_rfl

/-- A position the fill does not visit keeps its hue. -/
theorem rainbowFill_other {l : List (BitVec 4)} {q : BitVec 4} (h : q ∉ l) (c : PixelBuffer × Byte) :
    bufHue (rainbowFill l c).1 q = bufHue c.1 q := by
  induction l generalizing c with
  | nil => rfl
  | cons p l ih =>
    simp only [List.mem_cons, not_or] at h
    rw [rainbowFill, List.foldl_cons]
    refine (ih h.2 _).trans ?_
    simp [rainbowPixel, h.1]

/-- The hue state 5 stores of a value of `hue1`, as it is or reduced (R199, U19). -/
def rainbowStored (h : Byte) : Byte := if Config.rainbowReduces then wrapHue h else h

/-- A visited position holds what its last visit stored (R199). -/
theorem rainbowFill_last {l : List (BitVec 4)} {p : BitVec 4} {k : Nat} (hk : l[k]? = some p)
    (hl : ∀ j, k < j → l[j]? ≠ some p) (c : PixelBuffer × Byte) :
    bufHue (rainbowFill l c).1 p
      = rainbowStored (c.2 + BitVec.ofNat 8 (k + Config.rainbowStepsFirst.toNat) * Config.rainbowStep) := by
  induction l generalizing c k with
  | nil => simp at hk
  | cons q l ih =>
    rw [rainbowFill, List.foldl_cons, ← rainbowFill]
    cases k with
    | zero =>
      have hn : p ∉ l := by
        intro hm
        obtain ⟨j, hj⟩ := List.mem_iff_getElem?.1 hm
        exact hl (j + 1) (by omega) (by simpa using hj)
      rw [rainbowFill_other hn]
      simp only [List.getElem?_cons_zero, Option.some.injEq] at hk
      subst hk
      cases h : Config.rainbowStepsFirst <;> simp [rainbowPixel, rainbowStored, h]
    | succ k =>
      rw [ih (by simpa using hk) fun j hj => by simpa using hl (j + 1) (by omega)]
      congr 1
      change c.2 + Config.rainbowStep + _ = _
      rw [Nat.add_right_comm k 1, BitVec.ofNat_add _ 1, BitVec.add_mul]
      simp only [BitVec.one_mul]
      ac_rfl

theorem rendered_rainbow (buf : PixelBuffer) (q : AnimParams) (rng : BitVec 16) :
    ∃ c, (∀ p, bufHue c p = bufHue buf p) ∧ (∀ p, (bufBri c p).toNat ≤ 6) ∧
      (rendered 5 buf q rng).1 = (rainbowFill (Config.rainbowPixels buf q) (c, q.hue1)).1 ∧
      (rendered 5 buf q rng).2.hue1 = (rainbowFill (Config.rainbowPixels buf q) (c, q.hue1)).2 ∧
      (rendered 5 buf q rng).2.hue2.toNat < 192 := by
  refine ⟨{ (bufLegal (Config.renderAction 5 buf q rng).1) with hue := buf.hue }, fun p => rfl, fun p => ?_, ?_⟩
  · exact (bufBri_bufLegal (Config.renderAction 5 buf q rng).1 p).symm ▸ clampBri_le _
  · simp only [rendered, if_true]
    exact ⟨trivial, trivial, wrapHue_lt _⟩

/-- Outside state 5 a rendering action leaves a legal buffer and both hues in their domain (R172). -/
theorem rendered_legal {state : BitVec 3} (h : state ≠ 5) (buf : PixelBuffer) (q : AnimParams)
    (rng : BitVec 16) :
    (∀ p, (bufHue (rendered state buf q rng).1 p).toNat < 192 ∧
      (bufBri (rendered state buf q rng).1 p).toNat ≤ 6) ∧
    (rendered state buf q rng).2.hue1.toNat < 192 ∧ (rendered state buf q rng).2.hue2.toNat < 192 := by
  simp only [rendered, if_neg h, bufHue_bufLegal, bufBri_bufLegal]
  exact ⟨fun p => ⟨wrapHue_lt _, clampBri_le _⟩, wrapHue_lt _, wrapHue_lt _⟩

/-- What a rendering action does: it draws, and writes buffer and parameters (R181, R188). -/
theorem animAct_eq (s : State) :
    animAct s
      = (((s.setRng (lfsrAdvance^[(Config.renderDraws s.anim.state s.buf s.anim.params s.rng).length] s.rng)).setRngOut
          ((Config.renderDraws s.anim.state s.buf s.anim.params s.rng).getLast?.elim s.rngOut fun k =>
            (lfsrAdvance^[(Config.renderDraws s.anim.state s.buf s.anim.params s.rng).length] s.rng).toNat
              % (k + 1))).setBuf (rendered s.anim.state s.buf s.anim.params s.rng).1).setAnim
        { s.anim with params := (rendered s.anim.state s.buf s.anim.params s.rng).2 } := by
  rw [animAct, drawAll_eq]

/-! ## Every operation -/

/-- What a host operation leaves alone: the block's registers, the trace, the build, and of the program all but what it
issues at `CP` (R170). -/
structure HostKeeps (s t : State) : Prop where
  line : t.line = s.line
  sr : t.sr = s.sr
  bc : t.bc = s.bc
  pix : t.pix = s.pix
  ihold : t.ihold = s.ihold
  isave : t.isave = s.isave
  cp : t.cp = s.cp
  trace : t.trace = s.trace
  fault : t.fault = s.fault
  gamma : t.gamma = s.gamma
  order : t.order = s.order
  prog : ∃ l, t.prog = s.prog.take s.cp ++ l ++ s.prog.drop s.cp

theorem HostKeeps.of_prog {s t : State} (line : t.line = s.line) (sr : t.sr = s.sr)
    (bc : t.bc = s.bc) (pix : t.pix = s.pix) (ihold : t.ihold = s.ihold) (isave : t.isave = s.isave)
    (cp : t.cp = s.cp) (trace : t.trace = s.trace) (fault : t.fault = s.fault)
    (gamma : t.gamma = s.gamma) (order : t.order = s.order) (prog : t.prog = s.prog) :
    HostKeeps s t :=
  ⟨line, sr, bc, pix, ihold, isave, cp, trace, fault, gamma, order, [], by simp [prog]⟩

theorem hostKeeps_issue {s t : State} (h : HostKeeps s t) (hp : t.prog = s.prog) (l a) :
    HostKeeps s (issue l a t) :=
  ⟨h.line, h.sr, h.bc, h.pix, h.ihold, h.isave, h.cp, h.trace, h.fault, h.gamma, h.order,
    l.map encode, by rw [issue_prog, hp, h.cp]⟩

theorem hostKeeps_setBuf (s : State) (b) : HostKeeps s (s.setBuf b) :=
  .of_prog rfl rfl rfl rfl rfl rfl rfl rfl rfl rfl rfl rfl
theorem hostKeeps_setIe (s : State) (b) : HostKeeps s (s.setIe b) :=
  .of_prog rfl rfl rfl rfl rfl rfl rfl rfl rfl rfl rfl rfl
theorem hostKeeps_setAnim (s : State) (a) : HostKeeps s (s.setAnim a) :=
  .of_prog rfl rfl rfl rfl rfl rfl rfl rfl rfl rfl rfl rfl
theorem hostKeeps_randomNext (s : State) (b) : HostKeeps s (randomNext b s) :=
  .of_prog rfl rfl rfl rfl rfl rfl rfl rfl rfl rfl rfl rfl

theorem hostKeeps_animAct (s : State) :
    HostKeeps s (animAct s) ∧ (animAct s).prog = s.prog ∧ (animAct s).sched = s.sched := by
  rw [animAct_eq]
  refine ⟨?_, ?_, ?_⟩
  · apply HostKeeps.of_prog <;> simp only [State.setAnim, State.setBuf, State.setRngOut, State.setRng]
  · simp
  · simp

theorem hostKeeps_animTick (s : State) : HostKeeps s (animTick s) :=
  hostKeeps_issue (hostKeeps_animAct s).1 (hostKeeps_animAct s).2.1 _ _

theorem animTick_anim (s : State) :
    (animTick s).anim
      = { s.anim with params := (rendered s.anim.state s.buf s.anim.params s.rng).2 } := rfl

theorem animTick_buf (s : State) :
    (animTick s).buf = (rendered s.anim.state s.buf s.anim.params s.rng).1 := rfl

theorem animTick_rng (s : State) :
    (animTick s).rng
      = lfsrAdvance^[(Config.renderDraws s.anim.state s.buf s.anim.params s.rng).length] s.rng := by
  rw [animTick, issue_rng, animAct_eq]
  rfl

/-- All a tick does (R188, R203). -/
theorem animTick_eq (s : State) :
    animTick s =
      { s with
        buf := (rendered s.anim.state s.buf s.anim.params s.rng).1
        rng := lfsrAdvance^[(Config.renderDraws s.anim.state s.buf s.anim.params s.rng).length] s.rng
        rngOut := (Config.renderDraws s.anim.state s.buf s.anim.params s.rng).getLast?.elim s.rngOut fun k =>
          (lfsrAdvance^[(Config.renderDraws s.anim.state s.buf s.anim.params s.rng).length] s.rng).toNat % (k + 1)
        anim := { s.anim with params := (rendered s.anim.state s.buf s.anim.params s.rng).2 }
        prog := s.prog.take s.cp ++ [encode .framea, encode .latch] ++ s.prog.drop s.cp
        sched := (s.cp + 1, .tickCount) :: s.sched.map fun e => (max e.1 s.cp + 2, e.2) } := by
  rw [animTick, animAct_eq]
  simp only [issue, State.setProg, State.setSched, State.setAnim, State.setBuf, State.setRngOut, State.setRng,
    List.map_cons, List.map_nil, List.length_cons, List.length_nil, List.cons_append, List.nil_append]

/-- After a tick its count is the next thing the host does, after the `FRAMEA` (R188). -/
theorem animTick_sched (s : State) :
    (animTick s).sched
      = (s.cp + 1, .tickCount) :: s.sched.map fun e => (max e.1 s.cp + 2, e.2) := by
  obtain ⟨hk, -, hs⟩ := hostKeeps_animAct s
  rw [animTick, issue_sched, hs, hk.cp]
  rfl

/-- What a tick issues: the `FRAMEA` at `CP`, the `LATCH` after it (R188, R203). -/
theorem animTick_at {s : State} (h : s.cp ≤ s.prog.length) :
    (animTick s).prog[s.cp]? = some (encode .framea) ∧
    (animTick s).prog[s.cp + 1]? = some (encode .latch) := by
  obtain ⟨hk, hp, -⟩ := hostKeeps_animAct s
  have hc : (animAct s).cp ≤ (animAct s).prog.length := by rw [hp, hk.cp]; exact h
  have h0 := issue_at (a := [(s.cp + 1, .tickCount)]) hc (k := 0) (l := [.framea, .latch]) rfl
  have h1 := issue_at (a := [(s.cp + 1, .tickCount)]) hc (k := 1) (l := [.framea, .latch]) rfl
  rw [hk.cp] at h0 h1
  exact ⟨h0, h1⟩

/-- A turning step issues the `FRAMER` of its new pixel and hue, and the `LATCH` after it (R186). -/
theorem spinTurn_turning {s : State} (h : s.anim.spin.turning = true) :
    spinTurn s = issue [.framer (spinStep s.anim.spin).pixel (spinStep s.anim.spin).hue, .latch] []
      (onSpin spinStep s) := by
  simp only [spinTurn, h, if_true]
  rfl

theorem hostKeeps_spinTurn (s : State) : HostKeeps s (spinTurn s) := by
  unfold spinTurn
  split
  · exact hostKeeps_issue (hostKeeps_setAnim _ _) rfl _ _
  · exact hostKeeps_setAnim _ _

/-- Every operation that has a next state keeps as much. -/
theorem hostDo_next {op : HostOp} {s t : State} (h : hostDo op s = .next t) : HostKeeps s t := by
  cases op <;> simp only [hostDo] at h
  case next bound =>
    split at h
    · cases h
    · cases h; exact hostKeeps_randomNext _ _
  case tick => cases h; exact hostKeeps_animTick _
  case spinStep => cases h; exact hostKeeps_spinTurn _
  case tickCount => cases h; exact hostKeeps_setAnim _ _
  case press => cases h; exact hostKeeps_setAnim _ _
  case release => cases h; exact hostKeeps_setAnim _ _
  case writeIE => cases h; exact hostKeeps_setIe _ _
  all_goals cases h; exact hostKeeps_setBuf _ _

end Sys2Proof.Machine
end

