-- ==== Sys2Proof/Laws/PerInstr.lean ====
section
/-! SUPPORT. The statements made of every command, one lemma per constructor. -/

namespace Sys2Proof.Laws.EncodesInTable

open Sys2Proof

/-- The encoder writes a word of the table of R82, never a reserved one (R85). -/
def Statement (i : Instr) : Prop := wordWellFormed (encode i) = true

/-- One row that the word matches is enough. -/
theorem of_row (n : Nat) (r : CommandRow) (w : CW) (hr : commandRows[n]? = some r)
    (h : r.matchesWord w = true) : wordWellFormed w = true :=
  List.any_eq_true.2 ⟨r, List.mem_of_getElem? hr, h⟩

theorem and_zero : ∀ b : Byte, b &&& 0x00#8 = 0x00#8 := by decide

theorem sendbit (v : Bool) : Statement (.sendbit v) := by cases v <;> rfl

theorem sendbyte (value : Byte) : Statement (.sendbyte value) :=
  of_row 1 _ _ rfl ((matchesWord_wordOf _ _ _ _ 0x02 0 0 0 0xFF 0xFF 0xFF 0x00).2
    ⟨rfl, rfl, rfl, and_zero value⟩)

theorem wrcolor (r g b : Byte) : Statement (.wrcolor r g b) :=
  of_row 2 _ _ rfl ((matchesWord_wordOf _ _ _ _ 0x03 0 0 0 0xFF 0x00 0x00 0x00).2
    ⟨rfl, and_zero r, and_zero g, and_zero b⟩)

theorem wrhue (hue : Byte) : Statement (.wrhue hue) :=
  of_row 3 _ _ rfl ((matchesWord_wordOf _ _ _ _ 0x04 0 0 0 0xFF 0xFF 0x00 0xFF).2
    ⟨rfl, rfl, and_zero hue, rfl⟩)

theorem wrhuebr (hue bri : Byte) : Statement (.wrhuebr hue bri) :=
  of_row 4 _ _ rfl ((matchesWord_wordOf _ _ _ _ 0x05 0 0 0 0xFF 0xFF 0x00 0x00).2
    ⟨rfl, rfl, and_zero hue, and_zero bri⟩)

theorem latch : Statement .latch := rfl

theorem ihold : Statement .ihold := rfl

theorem irel : Statement .irel := rfl

theorem framer (pos : BitVec 4) (hue : Byte) : Statement (.framer pos hue) := by
  have h : ∀ p : BitVec 4, (0#4 ++ p) &&& 0xF0#8 = 0x00#8 := by decide
  exact of_row 8 _ _ rfl ((matchesWord_wordOf _ _ _ _ 0x10 0 0 0 0xFF 0xFF 0x00 0xF0).2
    ⟨rfl, rfl, and_zero hue, h pos⟩)

theorem framea : Statement .framea := rfl

end Sys2Proof.Laws.EncodesInTable
end

