-- ==== Sys2Proof/Laws/Step.lean ====
section
/-! SUPPORT. Everything one step can do, said once: it is the host's operation that is due, or the body of one command, or
no next state. Rules about every step are derived from this and not from unfolding the step. -/

namespace Sys2Proof.Machine

/-- A host operation is due only outside a hold (R29, R226). -/
theorem State.hostDue_hold {s : State} {p : HostOp × List (Nat × HostOp)} (h : s.hostDue = some p) :
    s.ihold = false := by
  unfold State.hostDue at h
  split at h
  · cases h
  · split at h
    · rename_i hc; exact hc.2
    · cases h

/-- Under a hold no host operation is due (R226). -/
theorem State.hostDue_held {s : State} (h : s.ihold = true) : s.hostDue = none := by
  cases hd : s.hostDue with
  | none => rfl
  | some p => rw [State.hostDue_hold hd] at h; cases h

/-- What it is whose turn is the command at `CP` (R26). -/
theorem State.turn_command {s : State} {w : CW} (hf : s.fault = none) (hd : s.hostDue = none)
    (hw : s.prog[s.cp]? = some w) : s.turn = .command w := by
  simp only [State.turn, hf, hd, hw]

/-- Nothing is due while every operation to come stands before a later command. -/
theorem State.hostDue_later {s : State} (h : ∀ e ∈ s.sched, s.cp < e.1) : s.hostDue = none := by
  unfold State.hostDue
  split
  · rfl
  · rename_i n op rest heq
    rw [if_neg]
    rintro ⟨hn, -⟩
    have := h (n, op) (by rw [heq]; exact List.mem_cons_self)
    simp only at this
    omega

/-- The step of a due host operation (R170). -/
theorem step_host {s : State} {n : Nat} {op : HostOp} {rest : List (Nat × HostOp)}
    (hf : s.fault = none) (hh : s.ihold = false) (hs : s.sched = (n, op) :: rest) (hn : n ≤ s.cp) :
    step s = hostDo op (s.setSched rest) := by
  simp [step, State.turn, hf, State.hostDue, hs, hn, hh]

/-- The step of a fetched command (R26). -/
theorem step_command {s : State} {i : Instr} (hf : s.fault = none) (hd : s.hostDue = none)
    (hw : s.prog[s.cp]? = some (encode i)) (he : decode (encode i) = .ok i) : step s = exec i s := by
  rw [step, State.turn_command hf hd hw]
  simp only [runWord, he]

/-- A step that answers a next state is a host operation or a fetched word, the block not stopped. -/
theorem step_next {s t : State} (h : step s = .next t) :
    (∃ op rest, s.fault = none ∧ s.ihold = false ∧ s.hostDue = some (op, rest) ∧
      hostDo op (s.setSched rest) = .next t) ∨
    (∃ w, s.fault = none ∧ s.hostDue = none ∧ s.prog[s.cp]? = some w ∧ runWord w s = .next t) := by
  unfold step at h
  split at h <;> rename_i heq
  · cases h
  · left
    unfold State.turn at heq
    split at heq
    · cases heq
    · split at heq
      · rename_i hf _ op rest hd
        cases heq
        exact ⟨_, _, hf, State.hostDue_hold hd, hd, h⟩
      · split at heq <;> cases heq
  · right
    unfold State.turn at heq
    split at heq
    · cases heq
    · split at heq
      · cases heq
      · split at heq
        · cases heq; exact ⟨_, by assumption, by assumption, by assumption, h⟩
        · cases heq
  · cases h

/-- A fetched word is the body of a command, or the raise of `ReservedCommand` (R85). -/
theorem runWord_body (w : CW) (s : State) :
    ∃ body, runWord w s = command body s ∧ Ends s (body s) ∧
      ((∃ i, body = bodyOf i) ∨ body = raise .reservedCommand w) := by
  unfold runWord
  split
  · exact ⟨_, exec_eq_command _ _, ends_bodyOf _ _, .inl ⟨_, rfl⟩⟩
  · exact ⟨_, rfl, ends_raise _ _ _, .inr rfl⟩

/-- What a command that answers a next state keeps, whether it completed or raised a fault (R221). -/
theorem command_kept {body : State → Run} {s t : State} (he : Ends s (body s))
    (h : command body s = .next t) :
    s.fault = none ∧
    ((∃ u, body s = .ok u ∧ Kept s u ∧ u.fault = none ∧ t = u.advance) ∨
     (body s = .stop t ∧ Kept s t ∧ ∃ code value, t.fault = some ⟨code, s.cp, t.pix, value⟩)) := by
  rw [command_next] at h
  obtain ⟨hf, ⟨u, hu, rfl⟩ | hs⟩ := h
  · rw [hu] at he
    exact ⟨hf, .inl ⟨u, hu, he.1, he.2.trans hf, rfl⟩⟩
  · rw [hs] at he
    obtain ⟨hk, code, value, hv⟩ := he
    rw [hf] at hv
    exact ⟨hf, .inr ⟨hs, hk, code, value, hv⟩⟩

end Sys2Proof.Machine
end

