-- ==== Sys2Proof/Tests/Slice0.lean ====
section
/-! SUPPORT. Tests. Expected values come from `spec/95_test_vectors.md` (the section stands beside each) or by hand from
the rule named; the gamma table of the tests is that file's `GAMMA_T[i] = 4 i`, which is not the hardware's. -/

namespace Sys2Proof.Tests

open Sys2Proof Sys2Proof.Machine

/-! ## Small states -/

/-- `GAMMA_T` (95_test_vectors.md, head). -/
def gammaT : Vector Byte 64 := Vector.ofFn fun i : Fin 64 => BitVec.ofNat 8 (4 * i.val)

/-- Reset with a concrete table and wire order. -/
def idle (order : Order) : State := { State.reset with gamma := gammaT, order := order }

/-- The same inside a hold, `IE` saved as 1. -/
def held (order : Order) : State := { idle order with ihold := true, ie := false, isave := true }

/-- Reset with one command word in `PROG`. -/
def loaded (w : CW) : State := { idle .grb with prog := [w] }

/-- A stopped block. -/
def record : FaultRecord := ⟨.hueOutOfRange, 1, 5, 200⟩
def stoppedBlock : State := { idle .grb with fault := some record }

/-- The launch buffer of program P3 (95_test_vectors.md section 3), with other entries at one position. -/
def bufP3 : PixelBuffer :=
  { hue := #v[0, 12, 24, 36, 48, 60, 72, 84, 96, 108, 120, 132, 144, 156, 168, 180]
    bri := #v[0, 1, 2, 3, 4, 5, 6, 0, 1, 2, 3, 4, 5, 6, 0, 1] }

/-- Ready for FRAMEA, on a given buffer. -/
def ambient (b : PixelBuffer) : State := { idle .grb with buf := b }

/-- The next state of an outcome. -/
def nextOf (o : Host.Outcome State Fault Refusal) : Option State :=
  match o with
  | .next t => some t
  | .fault _ => none
  | .refused _ => none

/-- What a command appends to an empty trace. -/
def sentBy (i : Instr) (s : State) : Option (List Event) := (nextOf (exec i s)).map (·.trace)

/-- The fault a command records, with what it appended. -/
def faultOf (i : Instr) (s : State) : Option (Option FaultRecord × Nat) :=
  (nextOf (exec i s)).map fun t => (t.fault, t.trace.length)

/-- `n` bits of a number, most-significant first, as pulses. -/
def pulses (n w : Nat) : List Event := (List.range n).map fun k => .pulse (w.testBit (n - 1 - k))

/-- The number a list of pulses spells, most-significant bit first. -/
def spelled (l : List Event) : Nat := l.foldl (fun n e => 2 * n + (if e = .pulse true then 1 else 0)) 0

/-! ## Words that are no command: one for each check of R82, R85 -/

theorem test_reserved_op_zero : wordWellFormed 0x00000000#32 = false := by decide
theorem test_reserved_op_nine : wordWellFormed 0x09000000#32 = false := by decide
theorem test_reserved_op_last : wordWellFormed 0xFFFFFFFF#32 = false := by decide
theorem test_illformed_sendbit : wordWellFormed 0x01000002#32 = false := by decide
theorem test_illformed_sendbyte : wordWellFormed 0x02010055#32 = false := by decide
theorem test_illformed_wrhue : wordWellFormed 0x04006401#32 = false := by decide
theorem test_illformed_wrhuebr : wordWellFormed 0x05016404#32 = false := by decide
theorem test_illformed_latch : wordWellFormed 0x06000001#32 = false := by decide
theorem test_illformed_ihold : wordWellFormed 0x07000100#32 = false := by decide
theorem test_illformed_irel : wordWellFormed 0x08010000#32 = false := by decide
theorem test_illformed_framer : wordWellFormed 0x10006410#32 = false := by decide
theorem test_illformed_framea : wordWellFormed 0x11000080#32 = false := by decide

/-- The decoder refuses the same words (95_test_vectors.md section 2.8). -/
theorem test_decoder_refuses :
    [0x00000000#32, 0x01000002, 0x02010055, 0x04006401, 0x05016404, 0x06000001, 0x07000100, 0x08010000,
      0x09000000, 0x10006410, 0x11000080, 0x12000000, 0xFFFFFFFF].all
      (fun w => (decode w).toOption == none) = true := by decide

/-! ## Decoding, the word of every command written out field by field from R80 and R82: op, a, b, c -/

theorem test_decode_sendbit :
    (decode (0b00000001#8 ++ 0b00000000#8 ++ 0b00000000#8 ++ 0b00000001#8)).toOption = some (.sendbit true) := by
  decide
theorem test_decode_sendbyte :
    (decode (0b00000010#8 ++ 0b00000000#8 ++ 0b00000000#8 ++ 0b10100101#8)).toOption
      = some (.sendbyte 0xA5) := by decide
theorem test_decode_wrcolor :
    (decode (0b00000011#8 ++ 0b00010010#8 ++ 0b00110100#8 ++ 0b01010110#8)).toOption
      = some (.wrcolor 0x12 0x34 0x56) := by decide
theorem test_decode_wrhue :
    (decode (0b00000100#8 ++ 0b00000000#8 ++ 0b01100100#8 ++ 0b00000000#8)).toOption = some (.wrhue 100) := by
  decide
theorem test_decode_wrhuebr :
    (decode (0b00000101#8 ++ 0b00000000#8 ++ 0b01100100#8 ++ 0b00000100#8)).toOption
      = some (.wrhuebr 100 4) := by decide
theorem test_decode_latch :
    (decode (0b00000110#8 ++ 0b00000000#8 ++ 0b00000000#8 ++ 0b00000000#8)).toOption = some .latch := by decide
theorem test_decode_ihold :
    (decode (0b00000111#8 ++ 0b00000000#8 ++ 0b00000000#8 ++ 0b00000000#8)).toOption = some .ihold := by decide
theorem test_decode_irel :
    (decode (0b00001000#8 ++ 0b00000000#8 ++ 0b00000000#8 ++ 0b00000000#8)).toOption = some .irel := by decide
theorem test_decode_framer :
    (decode (0b00010000#8 ++ 0b00000000#8 ++ 0b01100100#8 ++ 0b00001111#8)).toOption
      = some (.framer 15 100) := by decide
theorem test_decode_framea :
    (decode (0b00010001#8 ++ 0b00000000#8 ++ 0b00000000#8 ++ 0b00000000#8)).toOption = some .framea := by decide

/-- Operand bytes are not sign extended or scaled (R81), and a hue of 255 is a well-formed word (R81). -/
theorem test_decode_extremes :
    (decode 0x03FF00FF#32).toOption = some (.wrcolor 255 0 255) ∧
    (decode 0x0500FFFF#32).toOption = some (.wrhuebr 255 255) := by decide

/-- Stored big-endian (R80, D25); three bytes are no command. -/
theorem test_decode_bytes :
    (decodeBytes [0x10, 0x00, 0x64, 0x03, 0x06]).toOption = some (.framer 3 100, [0x06]) ∧
    (decodeBytes [0x06, 0x00, 0x00]).toOption = none := by decide

/-- The opcode table's numbering: bits 31..24 are `op`. -/
theorem test_decode_table_word :
    decodeTableWord 32 0x1000640F = some (.framer 15 100) ∧ decodeTableWord 32 0x01000002 = none := by decide

/-! ## One command each -/

/-- 95_test_vectors.md section 2.1. -/
theorem test_sendbit : sentBy (.sendbit true) (held .grb) = some [.pulse true] := by decide
theorem test_sendbit_unprotected :
    faultOf (.sendbit true) (idle .grb) = some (some ⟨.unprotected, 0, 0, 1⟩, 0) := by decide

/-- Section 2.1: `P1 P0 P1 P0 P0 P1 P0 P1`. -/
theorem test_sendbyte :
    sentBy (.sendbyte 0xA5) (held .rgb) = some
      [.pulse true, .pulse false, .pulse true, .pulse false, .pulse false, .pulse true, .pulse false,
        .pulse true] := by decide
/-- Section 2.1: 40 cycles of high time for 0xA5; program P6: the fault outside a hold. -/
theorem test_sendbyte_high :
    (sentBy (.sendbyte 0xA5) (held .grb)).map highCycles = some 40 ∧
    faultOf (.sendbyte 0xA5) (idle .grb) = some (some ⟨.unprotected, 0, 0, 0xA5⟩, 0) := by decide

/-- Section 2.3: 34 12 56 in GRB, 12 34 56 in RGB. -/
theorem test_wrcolor_grb :
    sentBy (.wrcolor 0x12 0x34 0x56) (held .grb) = some (pulses 24 0x341256) := by decide
theorem test_wrcolor_rgb :
    sentBy (.wrcolor 0x12 0x34 0x56) (held .rgb) = some (pulses 24 0x123456) := by decide

/-- Section 2.4: hue 100 is 6C 00 90 in GRB; 63 and 64 the same pixel; 191 is full red. -/
theorem test_wrhue :
    sentBy (.wrhue 100) (held .grb) = some (pulses 24 0x6C0090) ∧
    sentBy (.wrhue 191) (held .rgb) = some (pulses 24 0xFC0000) := by decide
/-- Section 2.4: hue 192 is illegal; the hold is checked first. -/
theorem test_wrhue_faults :
    faultOf (.wrhue 192) (held .grb) = some (some ⟨.hueOutOfRange, 0, 0, 192⟩, 0) ∧
    faultOf (.wrhue 192) (idle .grb) = some (some ⟨.unprotected, 0, 0, 192⟩, 0) := by decide

/-- Section 2.5: (0, G[6], G[9]) is 18 00 24 in GRB; hue 160 at brightness 2 is (G[2], 0, G[1]). -/
theorem test_wrhuebr :
    sentBy (.wrhuebr 100 4) (held .grb) = some (pulses 24 0x180024) ∧
    sentBy (.wrhuebr 160 2) (held .rgb) = some (pulses 24 0x080004) := by decide
/-- Section 2.5: the hue is checked before the brightness. -/
theorem test_wrhuebr_faults :
    faultOf (.wrhuebr 10 7) (held .grb) = some (some ⟨.brightnessOutOfRange, 0, 0, 7⟩, 0) ∧
    faultOf (.wrhuebr 192 7) (held .grb) = some (some ⟨.hueOutOfRange, 0, 0, 192⟩, 0) := by decide

/-- Section 2.2: with and without a hold, and after another latch. -/
theorem test_latch :
    sentBy .latch (idle .grb) = some [.latch] ∧
    sentBy .latch { held .grb with trace := [.pulse true] } = some [.pulse true, .latch] := by decide

/-- R150: `IE` is saved and cleared. Program P7: a second hold is misuse. -/
theorem test_ihold :
    (nextOf (exec .ihold (idle .grb))).map (fun t => (t.ihold, t.ie, t.isave, t.cp))
      = some (true, false, true, 1) := by decide
theorem test_ihold_nested :
    faultOf .ihold (held .grb) = some (some ⟨.holdMisuse, 0, 0, 1⟩, 0) := by decide

/-- R151, R25: the saved enable comes back, whichever it was. -/
theorem test_irel :
    (nextOf (exec .irel { held .grb with isave := false })).map (fun t => (t.ihold, t.ie, t.cp))
      = some (false, false, 1) := by decide
theorem test_irel_outside :
    faultOf .irel (idle .grb) = some (some ⟨.holdMisuse, 0, 0, 0⟩, 0) := by decide

set_option maxRecDepth 8000 in
/-- Program P2: 384 pulses, pixel 3 is 6C 00 90, the others off; PIX 16, hold released. -/
theorem test_framer :
    (nextOf (exec (.framer 3 100) (idle .grb))).map
        (fun t => ((t.trace.length, spelled t.trace, t.pix), (t.ihold, t.ie, t.fault)))
      = some ((384, 0x6C0090 * 2 ^ 144 * 2 ^ 144, 16), (false, true, none)) := by decide

set_option maxRecDepth 8000 in
/-- R154, R160: an illegal hue faults at the active position, after two off pixels. -/
theorem test_framer_fault :
    (nextOf (exec (.framer 2 192) (idle .grb))).map (fun t => (t.trace.length, t.pix, t.ihold, t.fault))
      = some (48, 2, true, some ⟨.hueOutOfRange, 0, 2, 192⟩) := by decide

set_option maxRecDepth 8000 in
/-- Program P3: the 48 bytes of its table, 43 one bits. -/
theorem test_framea :
    (nextOf (exec .framea (ambient bufP3))).map (fun t => (spelled t.trace, highCycles t.trace, t.pix))
      = some (0x000000_000400_040800_100C00_300C00_780400_DC0020_000000_000004_040008_00001C_000438_00205C_00708C_000000_000400,
        1324, 16) := by decide

set_option maxRecDepth 8000 in
/-- Program P4, its second step: the frame freezes at position 5 after 120 pulses. -/
theorem test_framea_fault :
    (nextOf (exec .framea { ambient (bufWrite 5 200 5 bufP3) with cp := 1 })).map
        (fun t => ((t.trace.length, t.fault, t.cp, t.pix), (t.ihold, t.ie, t.isave)))
      = some ((120, some ⟨.hueOutOfRange, 1, 5, 200⟩, 1, 5), (true, false, true)) := by decide

/-! ## Steps -/

/-- R85: a reserved word sets the fault and nothing else; section 2.4's word 0x04006401. -/
theorem test_step_reserved :
    (nextOf (step (loaded 0x04006401#32))).map (fun t => (t.fault, t.cp, t.trace))
      = some (some ⟨.reservedCommand, 0, 0, 0x04006401⟩, 0, []) := by decide
/-- R26: the fetched command advances `CP` once; a placed word is the one the next step runs. -/
theorem test_step_placed :
    (nextOf (step (State.reset.withFetchWord 32 0x06000000))).map (fun t => (t.cp, t.trace))
      = some (1, [.latch]) := by decide
/-- R250, R258: nothing to execute right after reset. -/
theorem test_step_reset : nextOf (step State.reset) = none := by decide
/-- R173 by a due host operation: `set(5, 77)` gives brightness 6 there. -/
theorem test_step_host :
    (nextOf (step { loaded 0x06000000#32 with sched := [(0, .set 5 77)] })).map
        (fun t => ((bufHue t.buf 5, bufBri t.buf 5, bufBri t.buf 4), (t.cp, t.sched.length)))
      = some ((77, 6, 0), (0, 0)) := by
  decide

/-! ## The host's operations -/

/-- 95_test_vectors.md section 2.6, first and sixth rows. -/
theorem test_random :
    (nextOf (hostDo (.next 16) State.reset)).map (fun t => (t.rng, t.rngOut)) = some (0xE270, 0) ∧
    (nextOf (hostDo (.next 16) { idle .grb with rng := 0x0E27 })).map (fun t => (t.rng, t.rngOut))
      = some (0xB313, 3) := by decide
/-- Section 2.6: the generator's sixteen states from the seed. -/
theorem test_golden_sequence :
    (List.range 16).map (fun k => lfsrAdvance^[k + 1] 0xACE1#16)
      = [0xE270, 0x7138, 0x389C, 0x1C4E, 0x0E27, 0xB313, 0xED89, 0xC2C4, 0x6162, 0x30B1, 0xAC58, 0x562C,
         0x2B16, 0x158B, 0xBEC5, 0xEB62] := by decide
/-- Section 2.7: brightness under fadeIn and fadeOut, at both ends. -/
theorem test_fades :
    bufBri (bufFadeIn bufP3) 5 = 6 ∧ bufBri (bufFadeIn bufP3) 6 = 6 ∧
    bufBri (bufFadeOut bufP3) 1 = 0 ∧ bufBri (bufFadeOut bufP3) 0 = 0 := by decide
/-- R178: the rotation wraps between positions 15 and 0. -/
theorem test_rotate : bufHue (bufRotate 1 bufP3) 15 = 0 ∧ bufHue (bufRotate 15 bufP3) 0 = 180 := by decide

/-- R186: a press with a counter of 0x1F starts at 31, and a press while it slows changes no speed; at speed 2 the next
step bottoms out, at 95 it ends the spin. -/
theorem test_spin :
    (spinPress 0x1F ⟨.armed, 0, 3, 5, false⟩).speed = 31 ∧
    (spinPress 0x1F ⟨.slower, 40, 3, 5, false⟩).speed = 40 ∧
    (spinStep ⟨.faster, 2, 3, 5, true⟩).speed = 1 ∧ (spinStep ⟨.faster, 2, 3, 5, true⟩).phase = .slower ∧
    (spinStep ⟨.slower, 95, 3, 5, true⟩).phase = .waiting := by
  decide

/-- R186, R202: a stopped spin blocks while the button is down and is armed again once it is up, be it that the release
came before the stop (log 20). -/
theorem test_spin_release :
    (spinStep ⟨.waiting, 96, 3, 5, true⟩).phase = .waiting ∧
    (spinStep (spinRelease ⟨.waiting, 96, 3, 5, true⟩)).phase = .armed ∧
    (spinStep (spinStep (spinRelease ⟨.slower, 95, 3, 5, true⟩))).phase = .armed := by decide

/-- A spin at speed 20, its button down. -/
def turning : State :=
  { loaded 0x06000000#32 with
    anim := { State.reset.anim with spin := ⟨.faster, 20, 3, 5, true⟩ }, sched := [(0, .spinStep), (1, .clear)] }

/-- R186: the re-rendering is one FRAMER, then the gap, both before the command that stood there; what the host had to do
later waits with it (log 25). -/
theorem test_spin_issues :
    ∃ t, step turning = .next t ∧
      t.prog = [encode (.framer t.anim.spin.pixel t.anim.spin.hue), 0x06000000#32, 0x06000000#32] ∧
      t.sched = [(3, .clear)] := ⟨_, rfl, rfl, rfl⟩

/-- R188: a tick is followed by one FRAMEA, the count and the gap. -/
theorem test_tick_issues :
    ∃ t, step { loaded 0x07000000#32 with sched := [(0, .tick)] } = .next t ∧
      t.prog[0]? = some 0x11000000#32 ∧ t.prog[1]? = some 0x06000000#32 ∧ t.sched = [(1, .tickCount)] :=
  ⟨_, rfl, (animTick_at (Nat.zero_le _)).1, (animTick_at (Nat.zero_le _)).2, animTick_sched _⟩

/-- R191 by the count alone: state 7 is left for state 0 with the positions of its last visit, state 1 for state 2 with a
fresh count of 76 (R188). -/
theorem test_cycle :
    (animCount ⟨7, 1, ⟨9, 9, 9, 9⟩, ⟨1, 2, 3, 4⟩, ⟨.armed, 0, 0, 0, false⟩⟩).params.pos1 = 3 ∧
    (animCount ⟨7, 1, ⟨9, 9, 9, 9⟩, ⟨1, 2, 3, 4⟩, ⟨.armed, 0, 0, 0, false⟩⟩).state = 0 ∧
    (animCount ⟨1, 1, ⟨9, 9, 9, 9⟩, ⟨1, 2, 3, 4⟩, ⟨.armed, 0, 0, 0, false⟩⟩).countdown = 76 := by decide

/-- R172: a hue of 192 wraps to 0 and one of 255 to 63; a brightness of 7 is clamped to 6. -/
theorem test_domains :
    wrapHue 192 = 0 ∧ wrapHue 255 = 63 ∧ wrapHue 191 = 191 ∧ clampBri 7 = 6 ∧ clampBri 6 = 6 := by decide

/-- R8, R9: 480 cycles are 50 µs at 9.6 MHz; the other constants of R8's table that are products. -/
theorem test_constants :
    Config.tReset * 1000000 = Config.tResetMinUs * Config.fClk ∧ Config.frameBits = 384 ∧
    Config.hueMod = Config.nphase * Config.phaseLen := by decide

/-! ## The receiver view -/

/-- R59 to R62: one whole pixel and half of a second; the bits after the latch are pending. -/
theorem test_receiver :
    ledAfter .grb (pulses 36 0x6C0090000 ++ [.latch] ++ pulses 8 0) 0 = some ⟨0, 0x6C, 0x90⟩ ∧
    ledAfter .grb (pulses 36 0x6C0090000 ++ [.latch] ++ pulses 8 0) 1 = none ∧
    (segments (pulses 36 0x6C0090000 ++ [.latch] ++ pulses 8 0)).pending.length = 8 := by decide

/-! ## The assembler -/

/-- R86: an operand list with a hexadecimal number and a comment. -/
theorem test_assemble_line :
    assembleLine .ambient
        ['W', 'R', 'H', 'U', 'E', 'B', 'R', ' ', '0', 'x', '6', '4', ',', ' ', '4', ' ', ';', ' ', 'x']
      = some [.wrhuebr 100 4] := by decide
/-- R87: `SHOW 3, 100` in the reactive build is the frame and the latch; in the ambient build it takes no operand. -/
theorem test_assemble_show :
    assembleLine .reactive ['S', 'H', 'O', 'W', ' ', '3', ',', '1', '0', '0'] = some [.framer 3 100, .latch] ∧
    assembleLine .ambient ['S', 'H', 'O', 'W', ' ', '3', ',', '1', '0', '0'] = none := by decide

/-! ## Witnesses: for every statement with hypotheses, a state and operands that meet all of them; for a statement of
several clauses, each clause at the ends of its range -/

theorem witness_DecodeAcceptsExactlyTheRows :
    wordWellFormed 0x1000FF0F#32 = true ∧ wordWellFormed 0x1000FF10#32 = false ∧
    wordWellFormed 0x01000001#32 = true ∧ wordWellFormed 0x01000002#32 = false := by decide

/-- A line of R86, one number in each base at the ends of the range, with and without blanks, and a comment. -/
theorem witness_AssemblerReadsEveryCommand :
    ([0, 255] : List Nat).all (· < 256) = true ∧
    List.Forall₂ (fun n f => ∃ l t r : Line, f = l ++ t ++ r ∧ (l ++ r).all isBlank = true ∧
      (t = Nat.toDigits 10 n ∨ t = '0' :: 'x' :: Nat.toDigits 16 n))
      [0, 255] [['0'], [' ', '0', 'x', 'f', 'f', '\t']] ∧
    ([' '] ++ ['\t'] : Line).all isBlank = true ∧ (['\t'] : Line) ≠ [] ∧
    (∃ comment, ([';', 'x'] : Line) = ';' :: comment) :=
  ⟨by decide,
    .cons ⟨[], ['0'], [], by decide, by decide, .inl (by decide)⟩
      (.cons ⟨[' '], ['0', 'x', 'f', 'f'], ['\t'], by decide, by decide, .inr (by decide)⟩ .nil),
    by decide, by decide, _, rfl⟩

theorem witness_StepRunsDecodedCommand :
    let s := loaded 0x06000000#32
    s.fault = none ∧ s.hostDue = none ∧ s.prog[s.cp]? = some 0x06000000#32 ∧
      decode 0x06000000#32 = .ok .latch := ⟨rfl, rfl, rfl, rfl⟩

theorem witness_ReservedWordFaults :
    let s := loaded 0x09000000#32
    s.fault = none ∧ s.hostDue = none ∧ s.prog[s.cp]? = some 0x09000000#32 ∧
      wordWellFormed 0x09000000#32 = false := ⟨rfl, rfl, rfl, by decide⟩

theorem witness_StoppedBlockExecutesNothing : stoppedBlock.fault = some record := rfl

theorem witness_RunOverExecutesNothing :
    State.reset.fault = none ∧ State.reset.hostDue = none ∧
      State.reset.cp = State.reset.prog.length := ⟨rfl, rfl, rfl⟩

/-- With no command at `CP` and with one. -/
theorem witness_HostOperationRunsBetweenCommands :
    let s : State := { idle .grb with sched := [(0, .clear)] }
    let t : State := { loaded 0x06000000#32 with sched := [(0, .clear)] }
    s.fault = none ∧ s.ihold = false ∧ s.sched = (0, .clear) :: [] ∧ 0 ≤ s.cp ∧
    t.fault = none ∧ t.ihold = false ∧ t.sched = (0, .clear) :: [] ∧ 0 ≤ t.cp :=
  ⟨rfl, rfl, rfl, Nat.le_refl 0, rfl, rfl, rfl, Nat.le_refl 0⟩

/-- A hold with a command at `CP`: the step has a next state, a completed and a faulting one. -/
theorem witness_HoldKeepsTheHostOut :
    let s (w : CW) : State := { held .grb with prog := [w], sched := [(0, .clear)] }
    (s 0x08000000#32).ihold = true ∧ (∃ t, step (s 0x08000000#32) = .next t) ∧
      (∃ t, step (s 0x07000000#32) = .next t ∧ t.fault.isSome = true) :=
  ⟨rfl, ⟨_, rfl⟩, ⟨_, rfl, rfl⟩⟩

theorem witness_LaunchIsResting : Launch State.reset ∧ Launch (ambient bufP3) := ⟨rfl, rfl⟩

/-- The two sides of every statement of a transmitting command or of the hold: no fault, with and without a hold. Used by
SendbitSendsOneCell, SendbyteFollowsTheByteLaw, LatchEmitsOneLatch, UnprotectedCommandFaults,
WrcolorSendsTheBytesInWireOrder, IholdBeginsTheHold, IrelEndsTheHold, ReleaseRestoresTheInterruptEnable and
BitCellsPerCommand. -/
theorem witness_HoldAndNoHold :
    (held .grb).fault = none ∧ (held .grb).ihold = true ∧ (held .rgb).order = .rgb ∧
    (idle .grb).fault = none ∧ (idle .grb).ihold = false := ⟨rfl, rfl, rfl, rfl, rfl⟩

/-- The second part of UnprotectedCommandFaults: a frame command that records a fault. -/
theorem witness_UnprotectedCommandFaults :
    ∃ t r, exec (.framer 0 192) (idle .grb) = .next t ∧ t.fault = some r := ⟨_, _, rfl, rfl⟩

/-- Hue, rising and falling ramp: six legal hues, two illegal ones. -/
def hueCases : List (Byte × Byte × Byte) :=
  [(0, 0, 252), (63, 252, 0), (64, 0, 252), (127, 252, 0), (128, 0, 252), (191, 252, 0),
   (192, 0, 252), (255, 252, 0)]

/-- Hues at both ends of each phase, with their two ramps (section 2.4), and at both ends of the illegal range. -/
theorem witness_WrhueSendsTheHuePixel :
    (held .grb).fault = none ∧ (held .grb).ihold = true ∧ (idle .grb).ihold = false ∧
    hueCases.all (fun c => decide (c.2.1.toNat = 4 * (c.1.toNat % 64) ∧
      c.2.2.toNat + c.2.1.toNat = 252)) = true ∧
    (hueCases.take 6).all (fun c => decide (c.1.toNat < 192)) = true ∧
    (hueCases.drop 6).all (fun c => decide (192 ≤ c.1.toNat)) = true := by decide

/-- Hue, brightness, rising and falling index. -/
def briCases : List (Byte × Byte × Fin 64 × Fin 64) :=
  [(0, 0, 0, 0), (0, 6, 0, 63), (63, 6, 63, 0), (64, 1, 0, 1), (127, 3, 7, 0), (128, 5, 0, 31),
   (191, 6, 63, 0)]

/-- Hues and brightnesses at the ends of each clause, with the two indexes (section 2.5). -/
theorem witness_WrhuebrSendsTheScaledPixel :
    (held .grb).fault = none ∧ (held .grb).ihold = true ∧ (idle .grb).ihold = false ∧
    briCases.all (fun c => decide (c.1.toNat < 192 ∧ c.2.1.toNat ≤ 6 ∧
      c.2.2.1.val = (c.1.toNat % 64) >>> (6 - c.2.1.toNat) ∧
      c.2.2.2.val = (63 - c.1.toNat % 64) >>> (6 - c.2.1.toNat))) = true ∧
    (191#8).toNat < 192 ∧ 6 < (7#8).toNat ∧ 6 < (255#8).toNat ∧
    192 ≤ (192#8).toNat ∧ 192 ≤ (255#8).toNat := by decide

theorem witness_GammaReadNeverChanges : ∃ t, step (loaded 0x06000000#32) = .next t := ⟨_, rfl⟩

/-- Both ends of the wheel and of a phase, under a hold; used by BrightnessZeroIsOff and HueWheelCloses too. -/
theorem witness_WrhuePixelsLieOnTheWheel :
    (held .grb).fault = none ∧ (held .grb).ihold = true ∧
    (0#8).toNat < 192 ∧ (63#8).toNat < 192 ∧ (64#8).toNat < 192 ∧ (191#8).toNat < 192 := by decide

/-- Two hues of one phase and one index. -/
theorem witness_ScaledPixelDependsOnItsIndex :
    (held .grb).ihold = true ∧ (64#8).toNat < 192 ∧ (79#8).toNat < 192 ∧
    (64#8).toNat / 64 = (79#8).toNat / 64 ∧
    ((64#8).toNat % 64) >>> (6 - (2#8).toNat) = ((79#8).toNat % 64) >>> (6 - (2#8).toNat) := by decide

theorem witness_WireOrderPermutesTheBytes :
    (held .rgb).ihold = true ∧
      ∃ t, exec (.wrcolor 1 2 3) { held .rgb with order := .grb } = .next t := ⟨rfl, _, rfl⟩

/-- Both ends of the legal hues, and of the positions. FramerSendsOneFrame, FrameBitsFollowTheFormula,
FrameHighTimeCountsTheOnes, LatchedFrameIsDisplayed and SecondFrameWithoutLatchIsLost. -/
theorem witness_FramerSendsOneFrame :
    (idle .grb).fault = none ∧ (idle .grb).ihold = false ∧ (held .grb).fault = none ∧
    (held .grb).ihold = true ∧ (segments (idle .grb).trace).pending = [] ∧
    (0#8).toNat < 192 ∧ (191#8).toNat < 192 := by decide

/-- A legal buffer, with hues and brightnesses at both ends. FrameaSendsTheBuffer and the statements of a whole frame. -/
theorem witness_FrameaSendsTheBuffer :
    let s := ambient (bufWrite 0 191 6 bufP3)
    s.fault = none ∧ s.ihold = false ∧ (segments s.trace).pending = [] ∧
    (∀ p : BitVec 4, (bufHue s.buf p).toNat < 192 ∧ (bufBri s.buf p).toNat ≤ 6) ∧
    (∀ p : BitVec 4, pixelLegal s.buf p = true) := by decide

theorem resting_idle (order : Order) : Resting (idle order) :=
  ⟨rfl, rfl, rfl, Nat.zero_le _, fun _ => .inl rfl, nofun, Nat.zero_le _,
    nofun⟩

theorem resting_ambient (b : PixelBuffer) : Resting (ambient b) :=
  ⟨rfl, rfl, rfl, Nat.zero_le _, fun _ => .inl rfl, nofun, Nat.zero_le _,
    nofun⟩

/-- Positions are any; the illegal hues at both ends. -/
theorem witness_FramerFreezesAtTheActivePixel :
    Resting (idle .grb) ∧ (idle .grb).fault = none ∧ (idle .grb).ihold = false ∧
    192 ≤ (192#8).toNat ∧ 192 ≤ (255#8).toNat := ⟨resting_idle _, rfl, rfl, by decide, by decide⟩

/-- `p` is the lowest position whose entry is illegal. -/
def FirstBad (b : PixelBuffer) (p : BitVec 4) : Prop :=
  (∀ q : BitVec 4, q < p → (bufHue b q).toNat < 192 ∧ (bufBri b q).toNat ≤ 6) ∧
  (192 ≤ (bufHue b p).toNat ∨ 6 < (bufBri b p).toNat)

/-- The first bad position at both ends of the frame: by its hue at 0, by its brightness at 15. -/
theorem witness_FrameaFreezesAtTheFirstBadPixel :
    (∀ b, Resting (ambient b)) ∧ (∀ b, (ambient b).fault = none ∧ (ambient b).ihold = false) ∧
    FirstBad (bufWrite 0 192 0 bufP3) 0 ∧ FirstBad (bufWrite 5 255 7 bufP3) 5 ∧
    FirstBad (bufWrite 15 191 7 bufP3) 15 :=
  ⟨resting_ambient, fun _ => ⟨rfl, rfl⟩, by unfold FirstBad; decide, by unfold FirstBad; decide,
    by unfold FirstBad; decide⟩

/-- A resting state with a step: StepKeepsResting, TraceOnlyGrows, ConfigurationNeverChanges. -/
theorem witness_StepKeepsResting :
    Resting (loaded 0x06000000#32) ∧ ∃ t, step (loaded 0x06000000#32) = .next t :=
  ⟨⟨rfl, rfl, rfl, Nat.zero_le _, fun _ => .inl rfl, nofun, by decide,
    nofun⟩, _, rfl⟩

/-- A reachable state that is no launch state. -/
theorem witness_ReachableStatesRest :
    ∃ s, Reachable s ∧ s.trace = [.latch] :=
  ⟨_, .step (s := loaded 0x06000000#32) (.launch rfl) rfl, rfl⟩

/-- One command that completes and one that faults: CommandsLeaveTheHostAlone, CommandPointerMovesUnlessFaulted,
OnlyHoldCommandsTouchInterrupts, TablesAreReadOnlyByTheirCommands. -/
theorem witness_CommandsLeaveTheHostAlone :
    (∃ t, exec (.sendbit true) (held .grb) = .next t ∧ t.fault = none) ∧
    (∃ t, exec (.sendbit true) (idle .grb) = .next t ∧ t.fault.isSome = true) ∧
    Instr.sendbit true ≠ .framea ∧ (∀ h b, Instr.sendbit true ≠ .wrhuebr h b) :=
  ⟨⟨_, rfl, rfl⟩, ⟨_, rfl, rfl⟩, nofun, nofun⟩

theorem witness_LedsAreUnspecifiedBeforeALatch :
    Event.latch ∉ [Event.pulse true, .gap, .pulse false] := by decide

/-- Nothing pending; of LED 0 no bit or all but one, of LED 15 all but one; a whole frame. -/
theorem witness_UnreachedLedsAreUnspecified :
    (segments []).pending = [] ∧ (segments [.pulse true, .latch]).pending = [] ∧
    ([true] : List Bool) ≠ [] ∧ ([true] : List Bool).length < 24 * (0 + 1) ∧
    (List.replicate 23 true).length < 24 * (0 + 1) ∧ (List.replicate 383 true).length < 24 * (15 + 1) ∧
    384 ≤ (List.replicate 384 true).length := by
  refine ⟨rfl, rfl, ?_, ?_, ?_, ?_, ?_⟩
  · decide
  · decide
  all_goals (rw [List.length_replicate]; try norm_num)

theorem witness_FadeInReachesTheCeiling : bufBri (ambient bufP3).buf 0 = 0 := by decide

theorem witness_FadeOutReachesTheFloor : bufBri (ambient bufP3).buf 6 = 6 := by decide

theorem witness_RandomStepAdvancesTheRegister : (1 : Nat) ≠ 0 ∧ (0xFFFF : Nat) ≠ 0 := by decide

/-- A host operation both answer: RotationsAreBijections. -/
theorem witness_RotationsAreBijections :
    (∃ t, hostDo .rotateClockwise (ambient bufP3) = .next t) ∧
    (∃ t, hostDo .rotateCounterClockwise (ambient bufP3) = .next t) := ⟨⟨_, rfl⟩, _, rfl⟩

/-- The last tick of a state and the one before it; the entry of state 0; a tick and its count. -/
theorem witness_TickCountsTheStates :
    State.reset.anim.countdown ≤ 1 ∧
    1 < (⟨1, 2, ⟨0, 0, 0, 0⟩, ⟨0, 0, 0, 0⟩, ⟨.armed, 0, 0, 0, false⟩⟩ : Anim).countdown ∧
    State.reset.anim.state = 0 ∧ State.reset.anim.countdown = 1 ∧
    State.reset.anim.visit0 = State.reset.anim.params ∧
    ∃ t u, hostDo .tick State.reset = .next t ∧ hostDo .tickCount t = .next u :=
  ⟨by decide, by decide, rfl, rfl, rfl, _, _, rfl, rfl⟩

/-- A tick due in a state other than 5 and in state 5, with a command at `CP` and with none. -/
theorem witness_TickRendersOneFrame :
    let s : State := { loaded 0x06000000#32 with sched := [(0, .tick)] }
    let t : State := { idle .grb with
      anim := { State.reset.anim with state := 5 }, sched := [(0, .tick)] }
    s.fault = none ∧ s.ihold = false ∧ s.cp ≤ s.prog.length ∧ s.sched = (0, .tick) :: [] ∧
    s.anim.state ≠ 5 ∧ s.rng ≠ 0 ∧
    t.fault = none ∧ t.ihold = false ∧ t.cp ≤ t.prog.length ∧ t.sched = (0, .tick) :: [] ∧
    t.anim.state = 5 := by decide

/-- The two clauses on a position of state 5 leave none out, whatever the list: not visited, or visited last somewhere. -/
theorem witness_TickRendersOneFrame_visits (l : List (BitVec 4)) (p : BitVec 4) :
    p ∉ l ∨ ∃ k : Nat, l[k]? = some p ∧ ∀ j : Nat, k < j → l[j]? ≠ some p := by
  induction l with
  | nil => exact .inl List.not_mem_nil
  | cons a l ih =>
    obtain h | ⟨k, hk, hl⟩ := ih
    · by_cases e : p = a
      · subst e
        refine .inr ⟨0, rfl, fun j hj hp => ?_⟩
        cases j with
        | zero => exact absurd hj (Nat.lt_irrefl 0)
        | succ j => exact h (List.mem_of_getElem? hp)
      · exact .inl (by simp [e, h])
    · refine .inr ⟨k + 1, hk, fun j hj => ?_⟩
      cases j with
      | zero => exact absurd hj (Nat.not_lt_zero _)
      | succ j => exact hl j (Nat.lt_of_succ_lt_succ hj)

/-- An armed spin; a turning one with its step due; a waiting one, its button down and up. -/
theorem witness_SpinSpeedsUpThenStops :
    State.reset.anim.spin.phase = .armed ∧
    turning.anim.spin.phase = .faster ∧ turning.anim.spin.phase ≠ .armed ∧ turning.fault = none ∧
    turning.ihold = false ∧ turning.cp ≤ turning.prog.length ∧
    turning.sched = (0, .spinStep) :: [(1, .clear)] ∧
    (⟨.waiting, 96, 3, 5, true⟩ : Spin).phase = .waiting ∧
    (⟨.waiting, 96, 3, 5, false⟩ : Spin).pressed = false := by decide

theorem witness_BufferOperationsStayLegal :
    BufferLegal bufP3 ∧ (0#8).toNat < 192 ∧ (191#8).toNat < 192 :=
  ⟨by unfold BufferLegal; decide, by decide, by decide⟩

end Sys2Proof.Tests
end

section
/-! PROOFS. The family `20_memory.md`: the gamma table under every step (R52), and the bits of a whole frame (R58). -/

namespace Sys2Proof.Machine

/-! ## The gamma table -/

/-- A read past entry 0 is the table's byte (R52). -/
theorem State.gammaRead_entry (s : State) {i : Fin 64} (h : i.val ≠ 0) :
    s.gammaRead i = s.gamma[i.val] := if_neg h

/-- No step writes the gamma table, neither a host operation nor a fetched word (R31). -/
theorem step_gamma {s t : State} (h : step s = .next t) : t.gamma = s.gamma := by
  rcases step_next h with ⟨op, rest, -, -, -, hdo⟩ | ⟨w, -, -, -, hrun⟩
  · exact (hostDo_next hdo).gamma
  · obtain ⟨body, hbody, hends, -⟩ := runWord_body w s
    rw [hbody] at hrun
    obtain ⟨-, ⟨u, -, hkept, -, rfl⟩ | ⟨-, hkept, -⟩⟩ := command_kept hends hrun
    · exact hkept.gamma
    · exact hkept.gamma

/-! ## The bit at a place of a byte, a pixel, a run of pixels, a frame -/

/-- Bit `k` on the wire is bit `7 - k` of the byte, most significant first (R55). -/
theorem byteBits_getElem? (v : Byte) {k : Nat} (h : k < 8) :
    (byteBits v)[k]? = some (v.getLsbD (7 - k)) := by
  interval_cases k <;> rfl

/-- Bit `k` of a pixel is a bit of its wire byte `k div 8` (R56). -/
theorem colorBits_getElem? (order : Order) (c : Color) {k : Nat} (h : k < 24) :
    (colorBits order c)[k]? = some ((wireByte order c (k / 8)).getLsbD (7 - k % 8)) := by
  interval_cases k <;> rfl

/-- Bit `k` from position `p` on belongs to the pixel `p + k div 24` (R57). -/
theorem pixelsBits_getElem? (order : Order) (color : Nat → Color) (p n : Nat) {k : Nat}
    (h : k < 24 * n) :
    (pixelsBits order color p n)[k]?
      = some ((wireByte order (color (p + k / 24)) (k % 24 / 8)).getLsbD (7 - k % 8)) := by
  induction n generalizing p k with
  | zero => omega
  | succ n ih =>
    rw [pixelsBits_succ]
    rcases Nat.lt_or_ge k 24 with hk | hk
    · rw [List.getElem?_append_left (by simpa using hk), colorBits_getElem? _ _ hk,
        Nat.div_eq_of_lt hk, Nat.mod_eq_of_lt hk, Nat.add_zero]
    · obtain ⟨m, rfl⟩ := Nat.exists_eq_add_of_le hk
      have hpixel : p + (24 + m) / 24 = p + 1 + m / 24 := by omega
      have hbyte : (24 + m) % 24 / 8 = m % 24 / 8 := by omega
      have hbit : (24 + m) % 8 = m % 8 := by omega
      rw [List.getElem?_append_right (by simp), colorBits_length, Nat.add_sub_cancel_left,
        ih (p + 1) (by omega), hpixel, hbyte, hbit]

@[simp] theorem frameEvents_length (order : Order) (color : Nat → Color) :
    (frameEvents order color).length = 384 := by
  simp [frameEvents, pixelsEvents_eq]

/-- The `k`-th event of a frame is the pulse of `bit(k)` (R58). -/
theorem frameEvents_getElem? (order : Order) (color : Nat → Color) {k : Nat} (h : k < 384) :
    (frameEvents order color)[k]? = some (.pulse (frameBit order color k)) := by
  rw [frameEvents, pixelsEvents_eq, List.getElem?_map, pixelsBits_getElem? _ _ _ _ h, Nat.zero_add]
  rfl

/-! ## A frame command that completes -/

/-- The next state of a frame command whose sixteen pixels all go out: the frame in the trace, `PIX` at 16, `IE` as it
was (R157). -/
def State.framed (s : State) (l : List Event) : State :=
  (((s.sent l).setIsave s.ie).setPix 16).advance

@[simp] theorem State.framed_trace (s : State) (l : List Event) :
    (s.framed l).trace = s.trace ++ l := rfl

/-- `FRAMER` of a legal hue outside a hold (R154). -/
theorem exec_framer_sends {s : State} (hf : s.fault = none) (hi : s.ihold = false) (pos : BitVec 4)
    {hue : Byte} (hh : hue.toNat < 192) :
    exec (.framer pos hue) s = .next (s.framed (frameEvents s.order (reactiveColor pos hue))) :=
  exec_ok hf (frame_sends hi fun _ hq _ ht _ _ _ hp => reactivePixel_sends hh hq ht hp)

/-- `FRAMEA` of a legal buffer outside a hold (R155). -/
theorem exec_framea_sends {s : State} (hf : s.fault = none) (hi : s.ihold = false)
    (hl : BufferLegal s.buf) :
    exec .framea s = .next (s.framed (frameEvents s.order (ambientColor s))) :=
  exec_ok hf (frame_sends hi fun _ _ _ ht _ hg hb hp => ambientPixel_sends (hl _) ht hg hb hp)

/-- The cells a completed frame adds to the trace: 384, the `k`-th the pulse of `bit(k)` (R58). -/
theorem framed_cells (s : State) (order : Order) (color : Nat → Color) :
    (s.framed (frameEvents order color)).trace.length = s.trace.length + 384 ∧
      ∀ k, k < 384 → (s.framed (frameEvents order color)).trace[s.trace.length + k]?
        = some (.pulse (frameBit order color k)) := by
  constructor
  · simp
  · intro k hk
    rw [State.framed_trace, List.getElem?_append_right (Nat.le_add_right _ _),
      Nat.add_sub_cancel_left, frameEvents_getElem? order color hk]

end Sys2Proof.Machine

namespace Sys2Proof.Proofs

open Sys2Proof Sys2Proof.Machine

/-- Settles O23: entry 0 and the others are read as R52 says, and no step writes the table. -/
theorem gammaReadNeverChanges : Obligations.GammaReadNeverChanges := by
  refine ⟨fun s i => ?_, fun s t i h => State.gammaRead_congr (step_gamma h) i⟩
  split
  case isTrue hi => exact State.gammaRead_zero s (congrArg Fin.val hi)
  case isFalse hi => exact State.gammaRead_entry s (Fin.val_ne_of_ne hi)

/-- Settles O36: each frame command appends the frame's events, and the frame's `k`-th event is the pulse of `bit(k)`. -/
theorem frameBitsFollowTheFormula : Obligations.FrameBitsFollowTheFormula := by
  intro s hf hi
  constructor
  · intro pos hue hh
    exact ⟨_, exec_framer_sends hf hi pos hh, framed_cells s s.order (reactiveColor pos hue)⟩
  · intro hl
    exact ⟨_, exec_framea_sends hf hi hl, framed_cells s s.order (ambientColor s)⟩

end Sys2Proof.Proofs
end

section
/-! PROOFS. The family `30_encoding.md`: the words of the rows of R82 are the words the encoder writes, the decoder inverts
the encoder on them (R83), and every other word is reserved and faults (R85). -/

namespace Sys2Proof

/-! ## Must-be-zero bits of a byte, as the masks of R82 and as the decoder's checks -/

/-- A full mask leaves a byte as it is. -/
theorem byte_and_ff (b : Byte) : b &&& 0xFF = b := BitVec.and_allOnes

/-- What the mask of `SENDBIT` leaves of `c` is one bit. -/
theorem bitByte_of_mask : ∀ c : Byte, c &&& 0xFE#8 = 0#8 → 0#7 ++ BitVec.ofBool (c.getLsbD 0) = c := by decide

/-- What the mask of `FRAMER` leaves of `c` is four bits. -/
theorem nibbleByte_of_mask : ∀ c : Byte, c &&& 0xF0#8 = 0#8 → 0#4 ++ c.extractLsb' 0 4 = c := by decide

/-- What the decoder's check of `SENDBIT` leaves of `c` is one bit (R81). -/
theorem bitByte_of_high : ∀ c : Byte, c.extractLsb' 1 7 = 0#7 →
    0#7 ++ BitVec.ofBool (c.getLsbD 0) = c := by decide

/-- What the decoder's check of `FRAMER` leaves of `c` is four bits (R81). -/
theorem nibbleByte_of_high : ∀ c : Byte, c.extractLsb' 4 4 = 0#4 → 0#4 ++ c.extractLsb' 0 4 = c := by decide

/-- The high bits of a position written as a byte are zero, and the position reads back (R81). -/
theorem fields_nibbleByte : ∀ p : BitVec 4, (0#4 ++ p).extractLsb' 4 4 = 0#4 ∧
    (0#4 ++ p).extractLsb' 0 4 = p := by decide

/-! ## The decoder and the encoder -/

/-- The decoder reads back every command the encoder writes (R82, R83). -/
theorem decode_encode (i : Instr) : decode (encode i) = .ok i := by
  cases i with
  | sendbit v => cases v <;> rfl
  | framer pos hue =>
    obtain ⟨hz, hp⟩ := fields_nibbleByte pos
    simp [encode, decode, whenZero, hz, hp]
  | sendbyte value => simp [encode, decode, whenZero]
  | wrcolor r g b => simp [encode, decode]
  | wrhue hue => simp [encode, decode, whenZero]
  | wrhuebr hue bri => simp [encode, decode, whenZero]
  | latch => rfl
  | ihold => rfl
  | irel => rfl
  | framea => rfl

/-- A decoded word is the word of the command it decodes to: no bit is read and then dropped (R83). -/
theorem encode_of_decode {w : CW} {i : Instr} (h : decode w = .ok i) : encode i = w := by
  rw [← wordOf_fields w]
  simp only [decode] at h
  split at h
  -- `WRCOLOR` has no must-be-zero bit, and an unknown `op` decodes to nothing
  case h_3 hop => cases h; simp [encode, hop]
  case h_11 => cases h
  -- the other nine rows: their check has passed
  all_goals
    rename_i hop
    obtain ⟨hz, rfl⟩ := whenZero_ok.1 h
    simp only [Bool.and_eq_true, beq_iff_eq] at hz
  -- `SENDBIT` and `FRAMER` check part of a byte, the seven others whole bytes
  case h_1 =>
    obtain ⟨⟨ha, hb⟩, hc⟩ := hz
    simp only [encode, hop, ha, hb]
    exact congrArg (wordOf 0x01#8 0 0) (bitByte_of_high _ hc)
  case h_9 =>
    obtain ⟨ha, hc⟩ := hz
    simp [encode, hop, ha, nibbleByte_of_high _ hc]
  all_goals simp [encode, hop, hz]

/-- Decoding a word to a command and encoding the command as the word are one relation (R83). -/
theorem decode_eq_ok {w : CW} {i : Instr} : decode w = .ok i ↔ encode i = w :=
  ⟨encode_of_decode, fun h => h ▸ decode_encode i⟩

/-! ## The rows -/

/-- Every command's word is in the table (R82). -/
theorem encode_wellFormed (i : Instr) : wordWellFormed (encode i) = true := by
  cases i with
  | sendbit v => exact Laws.EncodesInTable.sendbit v
  | sendbyte value => exact Laws.EncodesInTable.sendbyte value
  | wrcolor r g b => exact Laws.EncodesInTable.wrcolor r g b
  | wrhue hue => exact Laws.EncodesInTable.wrhue hue
  | wrhuebr hue bri => exact Laws.EncodesInTable.wrhuebr hue bri
  | latch => exact Laws.EncodesInTable.latch
  | ihold => exact Laws.EncodesInTable.ihold
  | irel => exact Laws.EncodesInTable.irel
  | framer pos hue => exact Laws.EncodesInTable.framer pos hue
  | framea => exact Laws.EncodesInTable.framea

/-- The rows of R82 written as the bytes of pattern and mask, as `matchesWord_wordOf` reads them. -/
theorem commandRows_bytes : commandRows =
    [ ⟨wordOf 0x01 0 0 0, wordOf 0xFF 0xFF 0xFF 0xFE⟩, ⟨wordOf 0x02 0 0 0, wordOf 0xFF 0xFF 0xFF 0x00⟩,
      ⟨wordOf 0x03 0 0 0, wordOf 0xFF 0x00 0x00 0x00⟩, ⟨wordOf 0x04 0 0 0, wordOf 0xFF 0xFF 0x00 0xFF⟩,
      ⟨wordOf 0x05 0 0 0, wordOf 0xFF 0xFF 0x00 0x00⟩, ⟨wordOf 0x06 0 0 0, wordOf 0xFF 0xFF 0xFF 0xFF⟩,
      ⟨wordOf 0x07 0 0 0, wordOf 0xFF 0xFF 0xFF 0xFF⟩, ⟨wordOf 0x08 0 0 0, wordOf 0xFF 0xFF 0xFF 0xFF⟩,
      ⟨wordOf 0x10 0 0 0, wordOf 0xFF 0xFF 0x00 0xF0⟩, ⟨wordOf 0x11 0 0 0, wordOf 0xFF 0xFF 0xFF 0xFF⟩ ] := rfl

/-- A word that matches a row is the word of a command, the operands read from the fields the mask leaves free (R82). -/
theorem encoded_of_wellFormed {w : CW} (h : wordWellFormed w = true) : ∃ i, encode i = w := by
  rw [← wordOf_fields w] at h ⊢
  generalize fieldOp w = op, fieldA w = a, fieldB w = b, fieldC w = c at h ⊢
  simp only [wordWellFormed, commandRows_bytes, List.any_cons, List.any_nil, Bool.or_false,
    Bool.or_eq_true, matchesWord_wordOf, byte_and_ff] at h
  rcases h with ⟨rfl, rfl, rfl, hc⟩ | ⟨rfl, rfl, rfl, -⟩ | ⟨rfl, -, -, -⟩ | ⟨rfl, rfl, -, rfl⟩ |
    ⟨rfl, rfl, -, -⟩ | ⟨rfl, rfl, rfl, rfl⟩ | ⟨rfl, rfl, rfl, rfl⟩ | ⟨rfl, rfl, rfl, rfl⟩ |
    ⟨rfl, rfl, -, hc⟩ | ⟨rfl, rfl, rfl, rfl⟩
  · exact ⟨.sendbit (c.getLsbD 0), congrArg (wordOf 0x01 0 0) (bitByte_of_mask c hc)⟩
  · exact ⟨.sendbyte c, rfl⟩
  · exact ⟨.wrcolor a b c, rfl⟩
  · exact ⟨.wrhue b, rfl⟩
  · exact ⟨.wrhuebr b c, rfl⟩
  · exact ⟨.latch, rfl⟩
  · exact ⟨.ihold, rfl⟩
  · exact ⟨.irel, rfl⟩
  · exact ⟨.framer (c.extractLsb' 0 4) b, congrArg (wordOf 0x10 0 b) (nibbleByte_of_mask c hc)⟩
  · exact ⟨.framea, rfl⟩

/-- A word that matches no row is rejected: a command it decoded to would have a word outside the table (R85). -/
theorem decode_reserved {w : CW} (h : wordWellFormed w = false) : ∃ e, decode w = .error e := by
  cases hd : decode w with
  | error e => exact ⟨e, rfl⟩
  | ok i => rw [← encode_of_decode hd, encode_wellFormed] at h; cases h

end Sys2Proof

namespace Sys2Proof.Machine

/-- A reserved word at its fetch: the fault is recorded and nothing else changes (R85, R221). -/
theorem runWord_reserved {s : State} {w : CW} (hf : s.fault = none) (hw : wordWellFormed w = false) :
    runWord w s = .next (s.setFault (some ⟨.reservedCommand, s.cp, s.pix, w⟩)) := by
  obtain ⟨e, he⟩ := decode_reserved hw
  simp only [runWord, he]
  exact command_stop hf (raise_eq hf)

end Sys2Proof.Machine

namespace Sys2Proof.Proofs

open Sys2Proof Sys2Proof.Machine

/-- Settles O2: the words of the rows are the encoder's words, and the decoder inverts the encoder on exactly these. -/
theorem decodeAcceptsExactlyTheRows : Obligations.DecodeAcceptsExactlyTheRows := by
  refine fun w => ⟨fun h => ?_, decode_reserved⟩
  obtain ⟨i, hi⟩ := encoded_of_wellFormed h
  exact ⟨i, decode_eq_ok.2 hi, hi⟩

/-- Settles O9: the step is the run of the word at `CP`, which the decoder rejects. -/
theorem reservedWordFaults : Obligations.ReservedWordFaults := by
  intro s w hf hd hw hr
  rw [step, State.turn_command hf hd hw]
  exact runWord_reserved hf hr

end Sys2Proof.Proofs
end

section
/-! PROOFS. The family `40_transmitter.md`: `SENDBIT` with and without a hold (R100), the byte law with its high times
(R103), and `LATCH` (R104). -/

namespace Sys2Proof.Machine

/-! ## High times -/

/-- `TH(v)` in one formula: 3 cycles, and 4 more for a 1 (R101). -/
theorem Event.highCycles_pulse (v : Bool) : (Event.pulse v).highCycles = 3 + 4 * v.toNat := by
  cases v <;> rfl

/-- Each bit on the wire takes its 3 cycles, each 1 among them 4 more (R103). -/
theorem highCycles_pulses (l : List Bool) :
    highCycles (l.map Event.pulse) = 3 * l.length + 4 * (l.map Bool.toNat).sum := by
  induction l with
  | nil => rfl
  | cons v l ih =>
    have hcons : highCycles ((v :: l).map Event.pulse)
        = (Event.pulse v).highCycles + highCycles (l.map Event.pulse) := List.sum_cons
    rw [hcons, Event.highCycles_pulse, ih, List.length_cons, List.map_cons, List.sum_cons]
    omega

/-- `popcount` counts the bits from the least significant on, the wire from the other end. -/
theorem sum_byteBits (v : Byte) : ((byteBits v).map Bool.toNat).sum = popcount v := by
  have hrev : (byteBits v).map Bool.toNat
      = ((List.range 8).map fun i => (v.getLsbD i).toNat).reverse := rfl
  rw [hrev, List.sum_reverse, popcount]

/-- The total high time of a byte (R103). -/
theorem highCycles_byteEvents (v : Byte) : highCycles (byteEvents v) = 24 + 4 * popcount v := by
  rw [byteEvents_eq, highCycles_pulses, byteBits_length, sum_byteBits]

/-! ## The commands, with and without a hold -/

/-- Outside a hold the check records `Unprotected` and stops, whatever the body is (R224). -/
theorem checkHold_unprotected {value : CW} {body : State → Run} {s : State} (hf : s.fault = none)
    (h : s.ihold = false) :
    checkHold value body s = .stop (s.setFault (some ⟨.unprotected, s.cp, s.pix, value⟩)) := by
  rw [checkHold_free h, raise_eq hf]

/-- One bit cell outside a hold: the check comes before the line moves (R100). -/
theorem sendBit_unprotected {v : Bool} {s : State} (hf : s.fault = none) (h : s.ihold = false) :
    sendBit v s = .stop (s.setFault (some ⟨.unprotected, s.cp, s.pix, bitValue v⟩)) := by
  rw [sendBit, checkHold_unprotected hf h]

/-- A bit as the operand a fault records. -/
theorem bitValue_eq (v : Bool) : bitValue v = if v then 1 else 0 := by
  cases v <;> rfl

/-- `SENDBIT` under a hold (R100). -/
theorem exec_sendbit_held {s : State} (hf : s.fault = none) (hi : s.ihold = true) (v : Bool) :
    exec (.sendbit v) s = .next ((s.setLine false).emit (.pulse v)).advance :=
  exec_ok (i := .sendbit v) hf (sendBit_held hi)

/-- `SENDBIT` outside a hold (R100, R224). -/
theorem exec_sendbit_free {s : State} (hf : s.fault = none) (hi : s.ihold = false) (v : Bool) :
    exec (.sendbit v) s = .next (s.setFault (some ⟨.unprotected, s.cp, s.pix, if v then 1 else 0⟩)) := by
  rw [← bitValue_eq]
  exact exec_stop (i := .sendbit v) hf (sendBit_unprotected hf hi)

/-- `SENDBYTE` under a hold (R103). -/
theorem exec_sendbyte_held {s : State} (hf : s.fault = none) (hi : s.ihold = true) (v : Byte) :
    exec (.sendbyte v) s = .next (s.sent (byteEvents v)).advance :=
  exec_ok (i := .sendbyte v) hf (sendByte_held hi)

/-- `LATCH`, whose body reads no flag (R104). -/
theorem exec_latch {s : State} (hf : s.fault = none) :
    exec .latch s = .next (s.emit .latch).advance :=
  exec_ok (i := .latch) hf rfl

end Sys2Proof.Machine

namespace Sys2Proof.Proofs

open Sys2Proof Sys2Proof.Machine

/-- Settles O16: one cell under a hold, the raise of the check outside one. -/
theorem sendbitSendsOneCell : Obligations.SendbitSendsOneCell := by
  refine ⟨fun s v hf => ⟨fun hi => ?_, fun hi => ?_⟩, fun v => ?_⟩
  · exact exec_sendbit_held hf hi v
  · exact exec_sendbit_free hf hi v
  · cases v <;> rfl

/-- Settles O17: the command sends the events of the byte, whose high times add up to the byte's total. -/
theorem sendbyteFollowsTheByteLaw : Obligations.SendbyteFollowsTheByteLaw := by
  refine ⟨fun s v hf hi => exec_sendbyte_held hf hi v, fun v => ⟨?_, highCycles_byteEvents v⟩⟩
  simp only [Event.highCycles_pulse]

/-- Settles O18: whether there is a hold does not matter to the command. -/
theorem latchEmitsOneLatch : Obligations.LatchEmitsOneLatch :=
  ⟨fun _ hf => exec_latch hf, rfl⟩

end Sys2Proof.Proofs
end

section
/-! PROOFS. The family `42_frame_driver.md`: the begin of a hold (R150) and its end (R151). -/

namespace Sys2Proof.Machine

/-- A hold begun inside a hold is misuse, and the record is all that changes (R150). -/
theorem beginHold_misuse {s : State} (hf : s.fault = none) (hi : s.ihold = true) :
    beginHold s = .stop (s.setFault (some ⟨.holdMisuse, s.cp, s.pix, 1⟩)) := by
  rw [beginHold_held hi, raise_eq hf]

/-- A hold ended outside one is misuse, and the record is all that changes (R151). -/
theorem endHold_misuse {s : State} (hf : s.fault = none) (hi : s.ihold = false) :
    endHold s = .stop (s.setFault (some ⟨.holdMisuse, s.cp, s.pix, 0⟩)) := by
  rw [endHold_free hi, raise_eq hf]

/-- `IHOLD` outside a hold (R150). -/
theorem exec_ihold_free {s : State} (hf : s.fault = none) (hi : s.ihold = false) :
    exec .ihold s = .next (((s.setIsave s.ie).setIe false).setIhold true).advance :=
  exec_ok (i := .ihold) hf (beginHold_free hi)

/-- `IHOLD` inside a hold (R150). -/
theorem exec_ihold_held {s : State} (hf : s.fault = none) (hi : s.ihold = true) :
    exec .ihold s = .next (s.setFault (some ⟨.holdMisuse, s.cp, s.pix, 1⟩)) :=
  exec_stop (i := .ihold) hf (beginHold_misuse hf hi)

/-- `IREL` inside a hold (R151). -/
theorem exec_irel_held {s : State} (hf : s.fault = none) (hi : s.ihold = true) :
    exec .irel s = .next ((s.setIe s.isave).setIhold false).advance :=
  exec_ok (i := .irel) hf (endHold_held hi)

/-- `IREL` outside a hold (R151). -/
theorem exec_irel_free {s : State} (hf : s.fault = none) (hi : s.ihold = false) :
    exec .irel s = .next (s.setFault (some ⟨.holdMisuse, s.cp, s.pix, 0⟩)) :=
  exec_stop (i := .irel) hf (endHold_misuse hf hi)

end Sys2Proof.Machine

namespace Sys2Proof.Proofs

open Sys2Proof Sys2Proof.Machine

/-- Settles O29: the body of the command completes outside a hold and raises inside one. -/
theorem iholdBeginsTheHold : Obligations.IholdBeginsTheHold :=
  fun _ hf => ⟨exec_ihold_free hf, exec_ihold_held hf⟩

/-- Settles O30: the body of the command completes inside a hold and raises outside one. -/
theorem irelEndsTheHold : Obligations.IrelEndsTheHold :=
  fun _ hf => ⟨exec_irel_held hf, exec_irel_free hf⟩

end Sys2Proof.Proofs
end

section
/-! PROOFS. The family `43_host_environment.md`: what the host's operations make of each position of the Pixel Buffer
(R173 to R175), the fades up to their ceiling and down to their floor (R176, R177), and the rotations as shifts of the
ring (R178). -/

namespace Sys2Proof.Machine

/-! ## Reading a position after a buffer operation -/

@[simp] theorem bufHue_bufSet (p : BitVec 4) (hue : Byte) (b : PixelBuffer) (q : BitVec 4) :
    bufHue (bufSet p hue b) q = if q = p then hue else bufHue b q := bufHue_bufWrite p hue 6 b q

@[simp] theorem bufBri_bufSet (p : BitVec 4) (hue : Byte) (b : PixelBuffer) (q : BitVec 4) :
    bufBri (bufSet p hue b) q = if q = p then 6 else bufBri b q := bufBri_bufWrite p hue 6 b q

@[simp] theorem bufHue_bufClear (b : PixelBuffer) (q : BitVec 4) :
    bufHue (bufClear b) q = bufHue b q := rfl

@[simp] theorem bufBri_bufClear (b : PixelBuffer) (q : BitVec 4) : bufBri (bufClear b) q = 0 :=
  bufBri_mk_tabulate _ _ q

@[simp] theorem bufHue_bufFill (hue : Byte) (b : PixelBuffer) (q : BitVec 4) :
    bufHue (bufFill hue b) q = hue := bufHue_mk_tabulate _ _ q

@[simp] theorem bufBri_bufFill (hue : Byte) (b : PixelBuffer) (q : BitVec 4) :
    bufBri (bufFill hue b) q = bufBri b q := rfl

@[simp] theorem bufHue_bufFadeIn (b : PixelBuffer) (q : BitVec 4) :
    bufHue (bufFadeIn b) q = bufHue b q := rfl

@[simp] theorem bufBri_bufFadeIn (b : PixelBuffer) (q : BitVec 4) :
    bufBri (bufFadeIn b) q = if (bufBri b q).toNat < 6 then bufBri b q + 1 else bufBri b q :=
  bufBri_mk_tabulate _ _ q

@[simp] theorem bufHue_bufFadeOut (b : PixelBuffer) (q : BitVec 4) :
    bufHue (bufFadeOut b) q = bufHue b q := rfl

@[simp] theorem bufBri_bufFadeOut (b : PixelBuffer) (q : BitVec 4) :
    bufBri (bufFadeOut b) q = if 0 < (bufBri b q).toNat then bufBri b q - 1 else bufBri b q :=
  bufBri_mk_tabulate _ _ q

@[simp] theorem bufHue_bufRotate (k : BitVec 4) (b : PixelBuffer) (q : BitVec 4) :
    bufHue (bufRotate k b) q = bufHue b (q + k) := bufHue_mk_tabulate _ _ q

@[simp] theorem bufBri_bufRotate (k : BitVec 4) (b : PixelBuffer) (q : BitVec 4) :
    bufBri (bufRotate k b) q = bufBri b (q + k) := bufBri_mk_tabulate _ _ q

/-! ## The fades as arithmetic on brightnesses -/

/-- One call of `fadeIn` does not wrap: it adds only below 6 (R176). -/
theorem toNat_bufBri_bufFadeIn (b : PixelBuffer) (p : BitVec 4) :
    (bufBri (bufFadeIn b) p).toNat
      = if (bufBri b p).toNat < 6 then (bufBri b p).toNat + 1 else (bufBri b p).toNat := by
  rw [bufBri_bufFadeIn]
  split
  · bv_omega
  · rfl

/-- One call of `fadeOut` is the subtraction that stops at 0 (R177). -/
theorem toNat_bufBri_bufFadeOut (b : PixelBuffer) (p : BitVec 4) :
    (bufBri (bufFadeOut b) p).toNat = (bufBri b p).toNat - 1 := by
  rw [bufBri_bufFadeOut]
  split
  · bv_omega
  · omega

/-- `n` calls of `fadeIn` add `n`, up to the ceiling. -/
theorem toNat_bufBri_bufFadeIn_iterate (n : Nat) {b : PixelBuffer} {p : BitVec 4}
    (h : (bufBri b p).toNat ≤ 6) :
    (bufBri (bufFadeIn^[n] b) p).toNat = min ((bufBri b p).toNat + n) 6 := by
  induction n with
  | zero => exact (min_eq_left h).symm
  | succ n ih =>
    rw [Function.iterate_succ_apply', toNat_bufBri_bufFadeIn, ih]
    split <;> omega

/-- `n` calls of `fadeOut` subtract `n`, down to the floor. -/
theorem toNat_bufBri_bufFadeOut_iterate (n : Nat) (b : PixelBuffer) (p : BitVec 4) :
    (bufBri (bufFadeOut^[n] b) p).toNat = (bufBri b p).toNat - n := by
  induction n with
  | zero => rfl
  | succ n ih => rw [Function.iterate_succ_apply', toNat_bufBri_bufFadeOut, ih, Nat.sub_sub]

/-- Six calls of `fadeIn` or more bring every legal brightness to the ceiling (R176). -/
theorem bufBri_bufFadeIn_iterate_ceiling {n : Nat} (hn : 6 ≤ n) {b : PixelBuffer} {p : BitVec 4}
    (h : (bufBri b p).toNat ≤ 6) : bufBri (bufFadeIn^[n] b) p = 6 := by
  apply BitVec.eq_of_toNat_eq
  rw [toNat_bufBri_bufFadeIn_iterate n h]
  exact min_eq_right (hn.trans (Nat.le_add_left _ _))

/-- Six calls of `fadeOut` or more bring every legal brightness to the floor (R177). -/
theorem bufBri_bufFadeOut_iterate_floor {n : Nat} (hn : 6 ≤ n) {b : PixelBuffer} {p : BitVec 4}
    (h : (bufBri b p).toNat ≤ 6) : bufBri (bufFadeOut^[n] b) p = 0 := by
  apply BitVec.eq_of_toNat_eq
  rw [toNat_bufBri_bufFadeOut_iterate]
  exact Nat.sub_eq_zero_of_le (h.trans hn)

/-! ## The rotations as an action of the ring -/

@[simp] theorem bufRotate_zero (b : PixelBuffer) : bufRotate 0 b = b :=
  PixelBuffer.ext_reads (by simp) (by simp)

/-- Two shifts are one shift by their sum. -/
theorem bufRotate_bufRotate (j k : BitVec 4) (b : PixelBuffer) :
    bufRotate j (bufRotate k b) = bufRotate (j + k) b :=
  PixelBuffer.ext_reads (by simp [BitVec.add_assoc]) (by simp [BitVec.add_assoc])

/-- A shift is undone by the opposite one. -/
theorem bufRotate_neg_bufRotate (k : BitVec 4) (b : PixelBuffer) :
    bufRotate (-k) (bufRotate k b) = b := by
  rw [bufRotate_bufRotate, neg_add_cancel, bufRotate_zero]

/-- `n` equal shifts are one shift. -/
theorem bufRotate_iterate (n : Nat) (k : BitVec 4) (b : PixelBuffer) :
    (bufRotate k)^[n] b = bufRotate (n • k) b := by
  induction n with
  | zero => rw [zero_nsmul, bufRotate_zero]; rfl
  | succ n ih => rw [Function.iterate_succ_apply', ih, bufRotate_bufRotate, succ_nsmul']

/-- The ring has sixteen places, so sixteen equal shifts go once around it (R178). -/
theorem bufRotate_iterate_sixteen (k : BitVec 4) (b : PixelBuffer) : (bufRotate k)^[16] b = b := by
  have hk : ∀ k : BitVec 4, 16 • k = 0 := by decide
  rw [bufRotate_iterate, hk, bufRotate_zero]

/-- The two rotations are opposite shifts by one place; which one is which stays open (R178, log 14). -/
theorem exists_clockwise_shift :
    ∃ k : BitVec 4, (k = 1 ∨ k = 15) ∧ bufClockwise = bufRotate k ∧ bufCounterClockwise = bufRotate (-k) := by
  refine ⟨if Config.clockwiseIsPlus then 1 else 15, ?_⟩
  unfold bufClockwise bufCounterClockwise
  cases Config.clockwiseIsPlus with
  | true => exact ⟨.inl rfl, rfl, rfl⟩
  | false => exact ⟨.inr rfl, rfl, rfl⟩

/-- An operation that only rewrites the buffer is undone by one that rewrites the buffer back. -/
theorem hostDo_undoes {op undo : HostOp} {f g : PixelBuffer → PixelBuffer}
    (hop : ∀ s, hostDo op s = .next (s.setBuf (f s.buf)))
    (hundo : ∀ s, hostDo undo s = .next (s.setBuf (g s.buf)))
    (hgf : ∀ b, g (f b) = b) {s t : State} (h : hostDo op s = .next t) :
    hostDo undo t = .next s := by
  rw [hop] at h
  cases h
  rw [hundo, State.setBuf_buf, hgf]
  rfl

end Sys2Proof.Machine

namespace Sys2Proof.Proofs

open Sys2Proof Sys2Proof.Machine

/-- Settles O51: each operation is one update of the buffer, read position by position. -/
theorem setClearFillWriteTheBuffer : Obligations.SetClearFillWriteTheBuffer := by
  refine fun s => ⟨fun p hue => ⟨bufSet p hue s.buf, rfl, fun q => ?_⟩,
    ⟨bufClear s.buf, rfl, fun q => ?_⟩, fun hue => ⟨bufFill hue s.buf, rfl, fun q => ?_⟩⟩
  · exact ⟨bufHue_bufSet p hue s.buf q, bufBri_bufSet p hue s.buf q⟩
  · exact ⟨bufHue_bufClear s.buf q, bufBri_bufClear s.buf q⟩
  · exact ⟨bufHue_bufFill hue s.buf q, bufBri_bufFill hue s.buf q⟩

/-- Settles O52: one call is the capped increment, and six or more from a legal brightness reach the ceiling. -/
theorem fadeInReachesTheCeiling : Obligations.FadeInReachesTheCeiling := by
  refine fun s p => ⟨⟨bufFadeIn s.buf, rfl, bufHue_bufFadeIn s.buf p, toNat_bufBri_bufFadeIn s.buf p⟩,
    fun h => ?_⟩
  have hlegal : (bufBri s.buf p).toNat ≤ 6 := by rw [h]; decide
  exact ⟨bufBri_bufFadeIn_iterate_ceiling (by decide) hlegal,
    bufBri_bufFadeIn_iterate_ceiling (by decide) hlegal⟩

/-- Settles O53: one call is the truncated decrement, and six or more from a legal brightness reach the floor. -/
theorem fadeOutReachesTheFloor : Obligations.FadeOutReachesTheFloor := by
  refine fun s p => ⟨⟨bufFadeOut s.buf, rfl, bufHue_bufFadeOut s.buf p, toNat_bufBri_bufFadeOut s.buf p⟩,
    fun h => ?_⟩
  have hlegal : (bufBri s.buf p).toNat ≤ 6 := by rw [h]; decide
  exact ⟨bufBri_bufFadeOut_iterate_floor (by decide) hlegal,
    bufBri_bufFadeOut_iterate_floor (by decide) hlegal⟩

/-- Settles O54: the rotations are the shifts by `k` and by `-k`, and shifts add up in the ring of sixteen places. -/
theorem rotationsAreBijections : Obligations.RotationsAreBijections := by
  obtain ⟨k, hk, hcw, hccw⟩ := exists_clockwise_shift
  have hdocw : ∀ s, hostDo .rotateClockwise s = .next (s.setBuf (bufRotate k s.buf)) :=
    fun s => hcw ▸ rfl
  have hdoccw : ∀ s, hostDo .rotateCounterClockwise s = .next (s.setBuf (bufRotate (-k) s.buf)) :=
    fun s => hccw ▸ rfl
  refine ⟨k, hk, fun s => ⟨_, hdocw s, fun p => ?_⟩, fun s => ⟨_, hdoccw s, fun p => ?_⟩,
    fun s t => hostDo_undoes hdocw hdoccw (bufRotate_neg_bufRotate k),
    fun s t => hostDo_undoes hdoccw hdocw fun b => ?_,
    fun b => ⟨?_, ?_, fun s => ⟨rfl, rfl⟩⟩⟩
  · exact ⟨bufHue_bufRotate k s.buf p, bufBri_bufRotate k s.buf p⟩
  · rw [BitVec.sub_eq_add_neg]
    exact ⟨bufHue_bufRotate (-k) s.buf p, bufBri_bufRotate (-k) s.buf p⟩
  · simpa using bufRotate_neg_bufRotate (-k) b
  · rw [hcw, bufRotate_iterate_sixteen]
  · rw [hccw, bufRotate_iterate_sixteen]

end Sys2Proof.Proofs
end

section
/-! PROOFS. The family `60_exceptions.md`: the raise of a transmitting command outside a hold, and why a frame command,
which transmits under its own hold, never raises it (R224). -/

namespace Sys2Proof.Machine

/-! ## Outside a hold -/

/-- A command whose body begins with the check of the hold, outside one (R224). -/
theorem exec_unprotected {i : Instr} {value : CW} {body : State → Run} {s : State}
    (hf : s.fault = none) (hi : s.ihold = false) (hb : bodyOf i s = checkHold value body s) :
    exec i s = .next (s.setFault (some ⟨.unprotected, s.cp, s.pix, value⟩)) :=
  exec_stop hf (hb.trans (checkHold_unprotected hf hi))

/-! ## Under a hold -/

/-- The state a `raise` of another code than `Unprotected` has left. -/
def State.FaultedUnderHold (s : State) : Prop := ∃ r, s.fault = some r ∧ r.code ≠ .unprotected

/-- Steps that went on without a fault and with the hold still set, or stopped for another reason than a missing
hold. -/
def Run.Protected : Run → Prop
  | .ok t => t.ihold = true ∧ t.fault = none
  | .stop t => t.FaultedUnderHold

/-- Begun under a hold and without a fault, the steps of `body` stay protected. -/
def Protects (body : State → Run) : Prop :=
  ∀ s, s.ihold = true → s.fault = none → (body s).Protected

theorem Run.Protected.bind {r : Run} {f : State → Run} (h : r.Protected) (hf : Protects f) :
    (r.bind f).Protected := by
  cases r with
  | ok t =>
    obtain ⟨hi, hn⟩ := h
    exact hf t hi hn
  | stop t => exact h

theorem raise_protected {code : FaultCode} (hc : code ≠ .unprotected) (value : CW) :
    Protects (raise code value) := fun s _ hf => by
  rw [raise_eq hf]
  exact ⟨_, rfl, hc⟩

theorem checkHold_protected (value : CW) {body : State → Run} (h : Protects body) :
    Protects (checkHold value body) := fun s hi hf => by
  rw [checkHold_held hi]
  exact h s hi hf

theorem checkHue_protected (hue : Byte) {body : State → Run} (h : Protects body) :
    Protects (checkHue hue body) := fun s hi hf => by
  unfold checkHue
  split
  · exact raise_protected (by decide) _ s hi hf
  · exact h s hi hf

theorem checkBri_protected (bri : Byte) {body : State → Run} (h : Protects body) :
    Protects (checkBri bri body) := fun s hi hf => by
  unfold checkBri
  split
  · exact raise_protected (by decide) _ s hi hf
  · exact h s hi hf

theorem wrColor_protected (c : Color) : Protects (wrColor c) := fun s hi hf => by
  rw [wrColor_held hi]
  exact ⟨hi, hf⟩

theorem wrHue_protected (hue : Byte) : Protects (wrHue hue) :=
  checkHold_protected _ (checkHue_protected hue (wrColor_protected _))

theorem wrHueBr_protected (hue bri : Byte) : Protects (wrHueBr hue bri) :=
  checkHold_protected _ (checkHue_protected hue (checkBri_protected bri fun _ => wrColor_protected _ _))

theorem reactivePixel_protected (pos : BitVec 4) (hue : Byte) : Protects (reactivePixel pos hue) :=
  fun s hi hf => by
    unfold reactivePixel
    split
    · exact wrHue_protected hue s hi hf
    · exact wrColor_protected _ s hi hf

theorem ambientPixel_protected : Protects ambientPixel := fun s => wrHueBr_protected _ _ s

/-- The loop moves `PIX` between its pixels, which touches neither the hold nor the fault. -/
theorem framePixels_protected {pixel : State → Run} (hp : Protects pixel) (n : Nat) :
    Protects (framePixels pixel n) := by
  induction n with
  | zero => exact fun s hi hf => ⟨hi, hf⟩
  | succ n ih => exact fun s hi hf => (hp s hi hf).bind fun t ht hn => ih _ ht hn

/-! ## A frame command -/

/-- A frame that stops has met another fault than `Unprotected`: at the begin of its hold there is one already, in the
loop its pixels are protected, and the end finds the hold it began. -/
theorem frame_stop {pixel : State → Run} (hp : Protects pixel) {s t : State} (hf : s.fault = none)
    (h : frame pixel s = .stop t) : t.FaultedUnderHold := by
  cases hi : s.ihold with
  | true =>
    rw [frame, beginHold_misuse hf hi] at h
    cases h
    exact ⟨_, rfl, nofun⟩
  | false =>
    rw [frame, beginHold_free hi, Run.bind_ok] at h
    have hloop := framePixels_protected hp Config.npix
      ((((s.setIsave s.ie).setIe false).setIhold true).setPix 0) rfl hf
    rcases Run.bind_eq_stop.mp h with hstop | ⟨u, hu, hend⟩
    · rwa [hstop] at hloop
    · rw [hu] at hloop
      rw [endHold_held hloop.1] at hend
      cases hend

/-- A command whose body is a frame: a fault it leaves is one its body stopped with, for it starts without one and a body
that completes adds none. -/
theorem exec_frame_fault {i : Instr} {pixel : State → Run} (hp : Protects pixel)
    (hb : bodyOf i = frame pixel) {s t : State} {r : FaultRecord} (h : exec i s = .next t)
    (hr : t.fault = some r) : r.code ≠ .unprotected := by
  rw [exec_eq_command] at h
  obtain ⟨hf, ⟨u, -, -, hnone, rfl⟩ | ⟨hstop, -⟩⟩ := command_kept (ends_bodyOf i s) h
  · rw [State.advance_fault, hnone] at hr
    cases hr
  · rw [hb] at hstop
    obtain ⟨r', hr', hcode⟩ := frame_stop hp hf hstop
    cases hr'.symm.trans hr
    exact hcode

end Sys2Proof.Machine

namespace Sys2Proof.Proofs

open Sys2Proof Sys2Proof.Machine

/-- Settles O19: the body of each transmitting command begins with the check of the hold, and a frame command's pixels run
under the hold it began. -/
theorem unprotectedCommandFaults : Obligations.UnprotectedCommandFaults := by
  refine ⟨fun s hf hi => ⟨fun v => ?_, fun v => ?_, fun r g b => ?_, fun hue => ?_, fun hue bri => ?_⟩,
    fun s t r i hframe h hr => ?_⟩
  · exact exec_sendbit_free hf hi v
  · exact exec_unprotected hf hi (by rw [bodyOf, sendByte, byteValue])
  · exact exec_unprotected hf hi (by rw [bodyOf, wrColor, byteValue])
  · exact exec_unprotected hf hi (by rw [bodyOf, wrHue, byteValue])
  · exact exec_unprotected hf hi (by rw [bodyOf, wrHueBr, byteValue])
  · rcases hframe with ⟨pos, hue, rfl⟩ | rfl
    · exact exec_frame_fault (reactivePixel_protected pos hue) rfl h hr
    · exact exec_frame_fault ambientPixel_protected rfl h hr

end Sys2Proof.Proofs
end

section
/-! PROOFS. The family of the encoding and the step: the decoder on the encoder's words and on stored bytes (R80, R82, R83),
whose turn a step is (R26, R28, R170, R258), and a word placed for the next fetch (log 8). -/

namespace Sys2Proof

/-! ## The rows of R82 by their `op` -/

theorem fieldOp_and (w m : CW) : fieldOp (w &&& m) = fieldOp w &&& fieldOp m :=
  BitVec.extractLsb'_and

/-- A row whose mask keeps the whole `op` byte fixes the `op` of its words. -/
theorem CommandRow.fieldOp_eq {r : CommandRow} {w : CW} (hm : fieldOp r.mask = 0xFF)
    (h : r.matchesWord w = true) : fieldOp w = fieldOp r.pattern := by
  rw [← eq_of_beq h, fieldOp_and, hm, byte_and_ff]

theorem commandRows_mask_op : ∀ r ∈ commandRows, fieldOp r.mask = 0xFF := by decide

theorem commandRows_op_ne :
    commandRows.Pairwise fun a b => fieldOp a.pattern ≠ fieldOp b.pattern := by decide

/-! ## Stored words -/

/-- The decoder of bytes reads the word the four bytes make (R80). -/
theorem decodeBytes_wordBytes (w : CW) (rest : List Byte) :
    decodeBytes (wordBytes w ++ rest) = (decode w).map fun i => (i, rest) := by
  simp only [wordBytes, List.cons_append, List.nil_append, decodeBytes, wordOf_fields]
  cases decode w <;> rfl

end Sys2Proof

namespace Sys2Proof.Machine

/-! ## Whose turn it is -/

/-- The step of a fetched word (R26). -/
theorem step_word {s : State} {w : CW} (hf : s.fault = none) (hd : s.hostDue = none)
    (hw : s.prog[s.cp]? = some w) : step s = runWord w s := by
  rw [step, State.turn_command hf hd hw]

theorem runWord_ok {w : CW} {i : Instr} (h : decode w = .ok i) (s : State) :
    runWord w s = exec i s := by
  simp only [runWord, h]

theorem runWord_error {w : CW} {e : DecodeError} (h : decode w = .error e) {s : State}
    (hf : s.fault = none) :
    runWord w s = .next (s.setFault (some ⟨.reservedCommand, s.cp, s.pix, w⟩)) := by
  simp only [runWord, h]
  exact command_stop hf (raise_eq hf)

/-- The step of a stopped block (R28). -/
theorem step_stopped {s : State} {r : FaultRecord} (h : s.fault = some r) :
    step s = .fault (.stopped r) := by
  simp only [step, State.turn, h]

/-- The step at the end of the program (R258). -/
theorem step_over {s : State} (hf : s.fault = none) (hd : s.hostDue = none)
    (hc : s.cp = s.prog.length) : step s = .refused .endOfProgram := by
  have hw : s.prog[s.cp]? = none := List.getElem?_eq_none hc.ge
  simp only [step, State.turn, hf, hd, hw]

/-! ## Placing a word -/

/-- The placed word stands at its index (log 8). -/
theorem placeAt_getElem? (l : List CW) (n : Nat) (w : CW) : (placeAt l n w)[n]? = some w := by
  have hlen : (l.take n ++ List.replicate (n - l.length) 0).length = n := by simp; omega
  rw [placeAt, List.getElem?_append_right hlen.le, hlen, Nat.sub_self, List.getElem?_cons_zero]

/-- What is left of the schedule is not due (log 8). -/
theorem hostDue_withFetchWord (s : State) (nbits w : Nat) :
    (s.withFetchWord nbits w).hostDue = none := by
  cases hi : s.ihold with
  | true => exact State.hostDue_held hi
  | false =>
    refine State.hostDue_later fun e he => ?_
    simp only [State.withFetchWord, State.schedLater, hi, Bool.false_eq_true, if_false] at he ⊢
    exact of_decide_eq_true (List.mem_filter.1 he).2

/-- The step after placing a word runs that word, whatever the state was (log 8). -/
theorem step_withFetchWord (s : State) (w : CW) :
    step (s.withFetchWord 32 w.toNat) = runWord w (s.withFetchWord 32 w.toNat) := by
  refine step_word rfl (hostDue_withFetchWord s 32 w.toNat) ?_
  have hw : BitVec.ofNat 32 (w.toNat % 2 ^ 32) = w := by
    rw [Nat.mod_eq_of_lt w.isLt, BitVec.ofNat_toNat, BitVec.setWidth_eq]
  simp only [State.withFetchWord, placeAt_getElem?, hw]

end Sys2Proof.Machine

namespace Sys2Proof.Proofs

open Sys2Proof Sys2Proof.Machine

/-- Settles O1: the decoder reads back what the encoder writes, constructor by constructor (`decode_encode`). -/
theorem decodeInvertsEncode : Obligations.DecodeInvertsEncode := decode_encode

/-- Settles O3: each row fixes the whole `op` byte of its words, and no two rows the same one. -/
theorem commandRowsAreDisjoint : Obligations.CommandRowsAreDisjoint := by
  refine commandRows_op_ne.imp_of_mem fun ha hb hne w ⟨hwa, hwb⟩ => hne ?_
  rw [← CommandRow.fieldOp_eq (commandRows_mask_op _ ha) hwa,
    ← CommandRow.fieldOp_eq (commandRows_mask_op _ hb) hwb]

/-- Settles O4: the four bytes are the four fields, of which the word is made. -/
theorem storedWordDecodesBigEndian : Obligations.StoredWordDecodesBigEndian := by
  refine fun w rest => ⟨rfl, ?_⟩
  rw [decodeBytes_wordBytes]
  cases decode w <;> rfl

/-- Settles O5: the decoder evaluated on each word. -/
theorem sampleWordsDecode : Obligations.SampleWordsDecode :=
  ⟨rfl, rfl, rfl, rfl, rfl, rfl, rfl, rfl, rfl, rfl, rfl, rfl, rfl⟩

/-- Settles O7: it is the command's turn, and its word is run. -/
theorem stepRunsDecodedCommand : Obligations.StepRunsDecodedCommand := by
  intro s w i hf hd hw hi
  rw [step_word hf hd hw, runWord_ok hi]

/-- Settles O8: the placed word is run, as the command it decodes to or as a reserved one. -/
theorem placedWordRunsNext : Obligations.PlacedWordRunsNext := by
  intro s w
  rw [step_withFetchWord]
  cases hd : decode w with
  | ok i => exact runWord_ok hd _
  | error e => exact runWord_error hd rfl

/-- Settles O10: the fault comes before every turn and before every body. -/
theorem stoppedBlockExecutesNothing : Obligations.StoppedBlockExecutesNothing := by
  refine fun s r h => ⟨step_stopped h, fun i => ?_⟩
  rw [exec_eq_command, command_stopped h]

/-- Settles O11: at the end of the program there is no word to fetch. -/
theorem runOverExecutesNothing : Obligations.RunOverExecutesNothing :=
  fun _ => step_over

/-- Settles O12: the due operation is the one whose turn it is, and a plain write is one update of the state. -/
theorem hostOperationRunsBetweenCommands : Obligations.HostOperationRunsBetweenCommands := by
  refine ⟨fun s n op rest hf hi hs hn => step_host hf hi hs hn,
    fun s p hue bri => ⟨bufWrite p hue bri s.buf, rfl, fun q => ?_⟩, fun s on => rfl⟩
  exact ⟨bufHue_bufWrite p hue bri s.buf q, bufBri_bufWrite p hue bri s.buf q⟩

end Sys2Proof.Proofs
end

section
/-! PROOFS. The whole-machine rules: what a command's cells and its hold come to (R158, R150, R151), the resting invariant
(R20 to R26, R221, R226), and what no command or no step touches (R27, R30 to R32, R50). -/

namespace Sys2Proof.Machine

/-! ## Every transmitting body: its cells, or a raise before the first of them -/

/-- The line is low and the working registers are at their idle values (R20 to R22). -/
def State.Quiet (s : State) : Prop := s.line = false ∧ s.sr = 0 ∧ s.bc = 0

/-- How far a command has got in `t` from its begin in `s`: `n` cells have gone out and `PIX` has moved on by `k`; the hold
is as it was. -/
structure Sent (n k : Nat) (s t : State) : Prop where
  ihold : t.ihold = s.ihold
  isave : t.isave = s.isave
  ie : t.ie = s.ie
  pix : t.pix = s.pix + BitVec.ofNat 5 k
  quiet : s.Quiet → t.Quiet
  cells : ∃ bits : List Bool, bits.length = n ∧ t.trace = s.trace ++ bits.map .pulse

theorem Sent.refl (s : State) : Sent 0 0 s s := ⟨rfl, rfl, rfl, by simp, id, [], rfl, by simp⟩

theorem Sent.trans {m n j k : Nat} {s t u : State} (h : Sent m j s t) (h' : Sent n k t u) :
    Sent (m + n) (j + k) s u := by
  obtain ⟨bits, hlen, htrace⟩ := h.cells
  obtain ⟨bits', hlen', htrace'⟩ := h'.cells
  exact ⟨h'.ihold.trans h.ihold, h'.isave.trans h.isave, h'.ie.trans h.ie,
    by rw [h'.pix, h.pix, BitVec.ofNat_add, BitVec.add_assoc], h'.quiet ∘ h.quiet,
    bits ++ bits', by simp [hlen, hlen'], by simp [htrace, htrace']⟩

theorem sent_pulses (s : State) (bits : List Bool) :
    Sent bits.length 0 s (s.sent (bits.map .pulse)) :=
  ⟨rfl, rfl, rfl, by simp, fun _ => ⟨rfl, rfl, rfl⟩, bits, rfl, rfl⟩

theorem sent_cell (s : State) (v : Bool) : Sent 1 0 s ((s.setLine false).emit (.pulse v)) :=
  ⟨rfl, rfl, rfl, by simp, fun h => ⟨rfl, h.2⟩, [v], rfl, rfl⟩

theorem sent_recordFault (s : State) (code : FaultCode) (value : CW) :
    Sent 0 0 s (s.recordFault code value) :=
  ⟨rfl, rfl, rfl, by simp [State.recordFault], id, [], rfl, by simp [State.recordFault]⟩

theorem sent_setPix (s : State) : Sent 0 1 s (s.setPix (s.pix + 1)) :=
  ⟨rfl, rfl, rfl, rfl, id, [], rfl, by simp⟩

/-- A body of `n` bit cells: it sends them all, or raises a fault before the first (R224). -/
def Transmits (n : Nat) (body : State → Run) : Prop :=
  ∀ s, (∃ t, body s = .ok t ∧ Sent n 0 s t) ∨ ∃ t, body s = .stop t ∧ Sent 0 0 s t

theorem transmits_raise (n : Nat) (code : FaultCode) (value : CW) : Transmits n (raise code value) :=
  fun s => .inr ⟨_, rfl, sent_recordFault s code value⟩

/-- The check of the hold before a body that completes under one (R224). -/
theorem transmits_checkHold {n : Nat} (v : CW) {body : State → Run}
    (h : ∀ s, s.ihold = true → ∃ t, checkHold v body s = .ok t ∧ Sent n 0 s t) :
    Transmits n (checkHold v body) := fun s => by
  cases hi : s.ihold with
  | true => exact .inl (h s hi)
  | false => rw [checkHold_free hi]; exact transmits_raise n _ _ s

theorem transmits_sendBit (v : Bool) : Transmits 1 (sendBit v) :=
  transmits_checkHold _ fun s hi => ⟨_, sendBit_held hi, sent_cell s v⟩

theorem transmits_sendByte (v : Byte) : Transmits 8 (sendByte v) :=
  transmits_checkHold _ fun s hi => ⟨_, sendByte_held hi, sent_pulses s (byteBits v)⟩

theorem transmits_wrColor (c : Color) : Transmits 24 (wrColor c) :=
  transmits_checkHold _ fun s hi => ⟨_, wrColor_held hi, by
    rw [colorEvents_eq]; exact colorBits_length s.order c ▸ sent_pulses s _⟩

theorem transmits_wrHue (hue : Byte) : Transmits 24 (wrHue hue) := fun s => by
  unfold wrHue checkHold checkHue
  split
  · split
    · exact transmits_raise 24 _ _ s
    · exact transmits_wrColor _ s
  · exact transmits_raise 24 _ _ s

theorem transmits_wrHueBr (hue bri : Byte) : Transmits 24 (wrHueBr hue bri) := fun s => by
  unfold wrHueBr checkHold checkHue checkBri
  split
  · split
    · exact transmits_raise 24 _ _ s
    · split
      · exact transmits_raise 24 _ _ s
      · exact transmits_wrColor _ s
  · exact transmits_raise 24 _ _ s

theorem transmits_reactivePixel (pos : BitVec 4) (hue : Byte) : Transmits 24 (reactivePixel pos hue) :=
  fun s => by
    unfold reactivePixel
    split
    · exact transmits_wrHue hue s
    · exact transmits_wrColor _ s

theorem transmits_ambientPixel : Transmits 24 ambientPixel := fun s => transmits_wrHueBr _ _ s

/-! ## The loop and the frame -/

/-- The loop of a frame over `n` positions: all their pixels, or those before the one that raised a fault (R160). -/
theorem framePixels_sent {pixel : State → Run} (h : Transmits 24 pixel) (n : Nat) (s : State) :
    (∃ t, framePixels pixel n s = .ok t ∧ Sent (24 * n) n s t) ∨
      ∃ k t, k < n ∧ framePixels pixel n s = .stop t ∧ Sent (24 * k) k s t := by
  induction n generalizing s with
  | zero => exact .inl ⟨s, rfl, Sent.refl s⟩
  | succ n ih =>
    rcases h s with ⟨t, ht, hst⟩ | ⟨t, ht, hst⟩
    · have hnext : Sent 24 1 s (t.setPix (t.pix + 1)) := hst.trans (sent_setPix t)
      rcases ih (t.setPix (t.pix + 1)) with ⟨u, hu, htu⟩ | ⟨k, u, hk, hu, htu⟩
      · refine .inl ⟨u, by rw [framePixels, ht, Run.bind_ok, hu], ?_⟩
        rw [Nat.mul_succ, Nat.add_comm (24 * n), Nat.add_comm n]
        exact hnext.trans htu
      · refine .inr ⟨k + 1, u, Nat.succ_lt_succ hk, by rw [framePixels, ht, Run.bind_ok, hu], ?_⟩
        rw [Nat.mul_succ, Nat.add_comm (24 * k), Nat.add_comm k]
        exact hnext.trans htu
    · exact .inr ⟨0, t, Nat.succ_pos n, by rw [framePixels, ht, Run.bind_stop], hst⟩

/-- A frame that completes has sent 384 cells and ended its hold (R157, R158). -/
theorem frame_ok {pixel : State → Run} (h : Transmits 24 pixel) {s t : State}
    (ht : frame pixel s = .ok t) :
    t.ihold = false ∧ t.pix = 16 ∧ (s.Quiet → t.Quiet) ∧
      ∃ bits : List Bool, bits.length = 384 ∧ t.trace = s.trace ++ bits.map .pulse := by
  cases hi : s.ihold with
  | true => rw [frame, beginHold_held hi] at ht; cases ht
  | false =>
    rw [frame, beginHold_free hi, Run.bind_ok] at ht
    rcases framePixels_sent h Config.npix ((((s.setIsave s.ie).setIe false).setIhold true).setPix 0) with
      ⟨u, hu, hsu⟩ | ⟨k, u, -, hu, -⟩
    · rw [hu, Run.bind_ok, endHold_held hsu.ihold] at ht
      cases ht
      exact ⟨rfl, hsu.pix, hsu.quiet, hsu.cells⟩
    · rw [hu] at ht; cases ht

/-- A frame that stops has met its misused hold, or stands under its own hold at the position of a pixel (R160). -/
theorem frame_stopped {pixel : State → Run} (h : Transmits 24 pixel) {s t : State}
    (ht : frame pixel s = .stop t) :
    Sent 0 0 s t ∨ (t.ie = false ∧ t.pix.toNat < 16 ∧ (s.Quiet → t.Quiet)) := by
  cases hi : s.ihold with
  | true =>
    rw [frame, beginHold_held hi] at ht
    cases ht
    exact .inl (sent_recordFault s _ _)
  | false =>
    right
    rw [frame, beginHold_free hi, Run.bind_ok] at ht
    rcases framePixels_sent h Config.npix ((((s.setIsave s.ie).setIe false).setIhold true).setPix 0) with
      ⟨u, hu, hsu⟩ | ⟨k, u, hk, hu, hsu⟩
    · rw [hu, Run.bind_ok, endHold_held hsu.ihold] at ht; cases ht
    · rw [hu] at ht
      cases ht
      have hpix : t.pix = 0 + BitVec.ofNat 5 k := hsu.pix
      have hk16 : k < 16 := hk
      refine ⟨hsu.ie, ?_, hsu.quiet⟩
      rw [hpix, zero_add, BitVec.toNat_ofNat]
      omega

/-! ## The resting invariant -/

/-- What holds wherever a command stops, a frame frozen at a pixel included (R20 to R24, R160). -/
structure State.Idle (s : State) : Prop where
  quiet : s.Quiet
  pix_le : s.pix.toNat ≤ 16
  masks : s.ihold = true → s.ie = false

/-- What holds where a command has completed: `PIX` is at one of its two ends as well (R23). -/
def State.AtRest (s : State) : Prop := s.Idle ∧ (s.pix = 0 ∨ s.pix = 16)

/-- The steps of a command completed at rest, or stopped idle. -/
def Run.Rests : Run → Prop
  | .ok t => t.AtRest
  | .stop t => t.Idle

theorem Sent.idle {n : Nat} {s t : State} (h : Sent n 0 s t) (hs : s.Idle) : t.Idle := by
  have hpix : t.pix = s.pix := by simpa using h.pix
  refine ⟨h.quiet hs.quiet, hpix ▸ hs.pix_le, fun hi => ?_⟩
  rw [h.ie]
  exact hs.masks (h.ihold ▸ hi)

theorem Sent.atRest {n : Nat} {s t : State} (h : Sent n 0 s t) (hs : s.AtRest) : t.AtRest := by
  have hpix : t.pix = s.pix := by simpa using h.pix
  exact ⟨h.idle hs.1, hpix ▸ hs.2⟩

theorem Transmits.rests {n : Nat} {body : State → Run} (h : Transmits n body) {s : State}
    (hs : s.AtRest) : (body s).Rests := by
  rcases h s with ⟨t, ht, hst⟩ | ⟨t, ht, hst⟩
  · rw [ht]; exact hst.atRest hs
  · rw [ht]; exact hst.idle hs.1

theorem frame_rests {pixel : State → Run} (h : Transmits 24 pixel) {s : State} (hs : s.AtRest) :
    (frame pixel s).Rests := by
  cases ht : frame pixel s with
  | ok t =>
    obtain ⟨hi, hpix, hq, -⟩ := frame_ok h ht
    exact ⟨⟨hq hs.1.quiet, by rw [hpix]; decide, by rw [hi]; exact nofun⟩, .inr hpix⟩
  | stop t =>
    rcases frame_stopped h ht with hst | ⟨hie, hpix, hq⟩
    · exact hst.idle hs.1
    · exact ⟨hq hs.1.quiet, hpix.le, fun _ => hie⟩

theorem beginHold_rests {s : State} (hs : s.AtRest) : (beginHold s).Rests := by
  cases hi : s.ihold with
  | true => rw [beginHold_held hi]; exact (sent_recordFault s _ _).idle hs.1
  | false => rw [beginHold_free hi]; exact ⟨⟨hs.1.quiet, hs.1.pix_le, fun _ => rfl⟩, hs.2⟩

theorem endHold_rests {s : State} (hs : s.AtRest) : (endHold s).Rests := by
  cases hi : s.ihold with
  | true => rw [endHold_held hi]; exact ⟨⟨hs.1.quiet, hs.1.pix_le, nofun⟩, hs.2⟩
  | false => rw [endHold_free hi]; exact (sent_recordFault s _ _).idle hs.1

/-- Every command begun at rest completes at rest or stops idle. -/
theorem bodyOf_rests (i : Instr) {s : State} (hs : s.AtRest) : (bodyOf i s).Rests := by
  cases i with
  | sendbit v => exact (transmits_sendBit v).rests hs
  | sendbyte v => exact (transmits_sendByte v).rests hs
  | wrcolor r g b => exact (transmits_wrColor _).rests hs
  | wrhue hue => exact (transmits_wrHue hue).rests hs
  | wrhuebr hue bri => exact (transmits_wrHueBr hue bri).rests hs
  | latch => exact ⟨⟨hs.1.quiet, hs.1.pix_le, hs.1.masks⟩, hs.2⟩
  | ihold => exact beginHold_rests hs
  | irel => exact endHold_rests hs
  | framer pos hue => exact frame_rests (transmits_reactivePixel pos hue) hs
  | framea => exact frame_rests transmits_ambientPixel hs

theorem Resting.atRest {s : State} (h : Resting s) (hf : s.fault = none) : s.AtRest :=
  ⟨⟨⟨h.line_low, h.sr_zero, h.bc_zero⟩, h.pix_le, h.hold_masks⟩, h.pix_rest hf⟩

/-- A state at rest without a fault is a resting state as long as `CP` is in `PROG` or at its end. -/
theorem State.AtRest.resting {s : State} (h : s.AtRest) (hf : s.fault = none)
    (hc : s.cp ≤ s.prog.length) : Resting s where
  line_low := h.1.quiet.1
  sr_zero := h.1.quiet.2.1
  bc_zero := h.1.quiet.2.2
  pix_le := h.1.pix_le
  pix_rest _ := h.2
  hold_masks := h.1.masks
  cp_le := hc
  fault_here _ hr := absurd (hf.symm.trans hr) nofun

/-- An idle state with a fault is a resting state if the record tells where the block stands (R223). -/
theorem State.Idle.resting {s : State} (h : s.Idle) {code : FaultCode} {value : CW}
    (hf : s.fault = some ⟨code, s.cp, s.pix, value⟩) (hc : s.cp ≤ s.prog.length) : Resting s where
  line_low := h.quiet.1
  sr_zero := h.quiet.2.1
  bc_zero := h.quiet.2.2
  pix_le := h.pix_le
  pix_rest hn := absurd (hn.symm.trans hf) nofun
  hold_masks := h.masks
  cp_le := hc
  fault_here r hr := by cases hf.symm.trans hr; exact ⟨rfl, rfl⟩

/-- A host operation, which comes outside a hold, keeps the invariant (R170, R226). -/
theorem hostDo_resting {op : HostOp} {s t : State} (hs : Resting s) (hf : s.fault = none)
    (hi : s.ihold = false) (h : hostDo op s = .next t) : Resting t := by
  have hk := hostDo_next h
  obtain ⟨l, hl⟩ := hk.prog
  have hq : t.Quiet := ⟨hk.line.trans hs.line_low, hk.sr.trans hs.sr_zero, hk.bc.trans hs.bc_zero⟩
  have hrest : t.AtRest := ⟨⟨hq, hk.pix ▸ hs.pix_le, by rw [hk.ihold, hi]; exact nofun⟩,
    hk.pix ▸ hs.pix_rest hf⟩
  refine hrest.resting (hk.fault.trans hf) ?_
  have hc := hs.cp_le
  rw [hk.cp, hl, List.length_append, List.length_append, List.length_take]
  omega

/-- A fetched word keeps the invariant, be it a command that completes or faults, or a reserved word. -/
theorem runWord_resting {w : CW} {s t : State} (hs : Resting s) (hw : s.prog[s.cp]? = some w)
    (h : runWord w s = .next t) : Resting t := by
  obtain ⟨body, hbody, hends, hcmd⟩ := runWord_body w s
  rw [hbody] at h
  obtain ⟨hf, hend⟩ := command_kept hends h
  have hrests : (body s).Rests := by
    rcases hcmd with ⟨i, rfl⟩ | rfl
    · exact bodyOf_rests i (hs.atRest hf)
    · exact (transmits_raise 0 _ w).rests (hs.atRest hf)
  have hc : s.cp < s.prog.length := (List.getElem?_eq_some_iff.1 hw).1
  rcases hend with ⟨u, hu, hk, hfu, rfl⟩ | ⟨ht, hk, code, value, hft⟩
  · rw [hu] at hrests
    have hadv : u.advance.AtRest :=
      ⟨⟨hrests.1.quiet, hrests.1.pix_le, hrests.1.masks⟩, hrests.2⟩
    refine hadv.resting hfu ?_
    rw [State.advance_cp, State.advance_prog, hk.cp, hk.prog]
    exact hc
  · rw [ht] at hrests
    rw [← hk.cp] at hft
    exact hrests.resting hft (by rw [hk.cp, hk.prog]; exact hc.le)

/-- Every step keeps the invariant. -/
theorem step_resting {s t : State} (hs : Resting s) (h : step s = .next t) : Resting t := by
  rcases step_next h with ⟨op, rest, hf, hi, -, hdo⟩ | ⟨w, -, -, hw, hrun⟩
  · have hs' : Resting (s.setSched rest) :=
      ⟨hs.line_low, hs.sr_zero, hs.bc_zero, hs.pix_le, hs.pix_rest, hs.hold_masks, hs.cp_le, hs.fault_here⟩
    exact hostDo_resting hs' hf hi hdo
  · exact runWord_resting hs hw hrun

theorem launch_resting {s : State} (h : Launch s) : Resting s := by
  rw [h]
  exact ⟨rfl, rfl, rfl, Nat.zero_le _, fun _ => .inl rfl, nofun, Nat.zero_le _, nofun⟩

theorem reachable_resting {s : State} (h : Reachable s) : Resting s := by
  induction h with
  | launch hl => exact launch_resting hl
  | step _ hst ih => exact step_resting ih hst

/-! ## The cells of a command that completes -/

/-- The number of bit cells of each command (R158). -/
def bitCells : Instr → Nat
  | .sendbit _ => 1
  | .sendbyte _ => 8
  | .wrcolor _ _ _ | .wrhue _ | .wrhuebr _ _ => 24
  | .latch | .ihold | .irel => 0
  | .framer _ _ | .framea => 384

/-- From `s` to `t` the command `i` has appended its cells and nothing else, but for the one `Latch` of `LATCH` (R104,
R158). -/
def Appends (i : Instr) (s t : State) : Prop :=
  ∃ bits : List Bool,
    t.trace = s.trace ++ bits.map .pulse ++ (if i = .latch then [.latch] else []) ∧
      bits.length = bitCells i

theorem appends_of_pulses {i : Instr} (hi : i ≠ .latch) {s t : State}
    (h : ∃ bits : List Bool, bits.length = bitCells i ∧ t.trace = s.trace ++ bits.map .pulse) :
    Appends i s t := by
  obtain ⟨bits, hlen, htrace⟩ := h
  exact ⟨bits, by rw [if_neg hi, List.append_nil, htrace], hlen⟩

/-- A transmitting body that completes has sent its cells. -/
theorem Transmits.cells {n : Nat} {body : State → Run} (h : Transmits n body) {s t : State}
    (ht : body s = .ok t) :
    ∃ bits : List Bool, bits.length = n ∧ t.trace = s.trace ++ bits.map .pulse := by
  rcases h s with ⟨u, hu, hsu⟩ | ⟨u, hu, -⟩
  · cases hu.symm.trans ht; exact hsu.cells
  · cases hu.symm.trans ht

theorem frame_cells {pixel : State → Run} (h : Transmits 24 pixel) {s t : State}
    (ht : frame pixel s = .ok t) :
    ∃ bits : List Bool, bits.length = 384 ∧ t.trace = s.trace ++ bits.map .pulse := by
  obtain ⟨-, -, -, hcells⟩ := frame_ok h ht
  exact hcells

theorem beginHold_trace {s t : State} (ht : beginHold s = .ok t) : t.trace = s.trace := by
  cases hi : s.ihold with
  | true => rw [beginHold_held hi] at ht; cases ht
  | false => rw [beginHold_free hi] at ht; cases ht; rfl

theorem endHold_trace {s t : State} (ht : endHold s = .ok t) : t.trace = s.trace := by
  cases hi : s.ihold with
  | true => rw [endHold_held hi] at ht; cases ht; rfl
  | false => rw [endHold_free hi] at ht; cases ht

/-- What each command has appended when its steps have completed (R158). -/
theorem bodyOf_appends {i : Instr} {s t : State} (h : bodyOf i s = .ok t) : Appends i s t := by
  cases i with
  | sendbit v => exact appends_of_pulses (by nofun) ((transmits_sendBit v).cells h)
  | sendbyte v => exact appends_of_pulses (by nofun) ((transmits_sendByte v).cells h)
  | wrcolor r g b => exact appends_of_pulses (by nofun) ((transmits_wrColor _).cells h)
  | wrhue hue => exact appends_of_pulses (by nofun) ((transmits_wrHue hue).cells h)
  | wrhuebr hue bri => exact appends_of_pulses (by nofun) ((transmits_wrHueBr hue bri).cells h)
  | latch => cases h; exact ⟨[], by simp, rfl⟩
  | ihold => exact appends_of_pulses (by nofun) ⟨[], rfl, by simpa using beginHold_trace h⟩
  | irel => exact appends_of_pulses (by nofun) ⟨[], rfl, by simpa using endHold_trace h⟩
  | framer pos hue => exact appends_of_pulses (by nofun) (frame_cells (transmits_reactivePixel pos hue) h)
  | framea => exact appends_of_pulses (by nofun) (frame_cells transmits_ambientPixel h)

/-! ## What no command and no step touches -/

/-- Everything a command can do, said of `exec`: it completes and moves on, or it stops with its record (R26, R221). -/
theorem exec_kept {i : Instr} {s t : State} (h : exec i s = .next t) :
    s.fault = none ∧
    ((∃ u, bodyOf i s = .ok u ∧ Kept s u ∧ u.fault = none ∧ t = u.advance) ∨
     (bodyOf i s = .stop t ∧ Kept s t ∧ ∃ code value, t.fault = some ⟨code, s.cp, t.pix, value⟩)) := by
  rw [exec_eq_command] at h
  exact command_kept (ends_bodyOf i s) h

/-- What a command owns none of, completed or faulted (R30 to R32, R161), and that it only adds to the trace (R27). -/
structure HostUntouched (s t : State) : Prop where
  buf : t.buf = s.buf
  rng : t.rng = s.rng
  rngOut : t.rngOut = s.rngOut
  anim : t.anim = s.anim
  sched : t.sched = s.sched
  gamma : t.gamma = s.gamma
  order : t.order = s.order
  prog : t.prog = s.prog
  grows : ∃ l, t.trace = s.trace ++ l

theorem Kept.hostUntouched {s t : State} (h : Kept s t) : HostUntouched s t :=
  ⟨h.buf, h.rng, h.rngOut, h.anim, h.sched, h.gamma, h.order, h.prog, h.grows⟩

theorem Kept.hostUntouched_advance {s t : State} (h : Kept s t) : HostUntouched s t.advance :=
  ⟨h.buf, h.rng, h.rngOut, h.anim, h.sched, h.gamma, h.order, h.prog, h.grows⟩

theorem command_hostUntouched {body : State → Run} {s t : State} (he : Ends s (body s))
    (h : command body s = .next t) : HostUntouched s t := by
  obtain ⟨-, ⟨u, -, hk, -, rfl⟩ | ⟨-, hk, -⟩⟩ := command_kept he h
  · exact hk.hostUntouched_advance
  · exact hk.hostUntouched

theorem exec_hostUntouched {i : Instr} {s t : State} (h : exec i s = .next t) : HostUntouched s t := by
  rw [exec_eq_command] at h
  exact command_hostUntouched (ends_bodyOf i s) h

theorem runWord_hostUntouched {w : CW} {s t : State} (h : runWord w s = .next t) : HostUntouched s t := by
  obtain ⟨body, hbody, hends, -⟩ := runWord_body w s
  rw [hbody] at h
  exact command_hostUntouched hends h

/-- What every step leaves alone (R27, R31, R32, R68): the host at most puts commands into `PROG` at `CP`. -/
theorem step_configuration {s t : State} (h : step s = .next t) :
    t.gamma = s.gamma ∧ t.order = s.order ∧ (s.hostDue = none → t.prog = s.prog) ∧
      (∃ issued, t.prog = s.prog.take s.cp ++ issued ++ s.prog.drop s.cp) ∧
      ∃ l, t.trace = s.trace ++ l := by
  rcases step_next h with ⟨op, rest, -, -, hd, hdo⟩ | ⟨w, -, -, -, hrun⟩
  · have hk := hostDo_next hdo
    refine ⟨hk.gamma, hk.order, fun hn => ?_, hk.prog, [], ?_⟩
    · cases hd.symm.trans hn
    · rw [List.append_nil]; exact hk.trace
  · have hk := runWord_hostUntouched hrun
    refine ⟨hk.gamma, hk.order, fun _ => hk.prog, ⟨[], ?_⟩, hk.grows⟩
    rw [List.append_nil, List.take_append_drop]; exact hk.prog

/-- A fetched word does the same whatever the schedule is, which no command reads (log 9). -/
theorem runWord_sched {w : CW} {s t : State} (l : List (Nat × HostOp)) (h : runWord w s = .next t) :
    runWord w { s with sched := l } = .next { t with sched := l } := by
  have hu := unread_sched l
  unfold runWord at h ⊢
  split at h
  · next i _ =>
    rw [exec_eq_command] at h ⊢
    exact command_unread hu (bodyOf_unread hu i (.inl fun _ _ => rfl) (.inl fun _ => rfl) s) h
  · exact command_unread hu (raise_unread hu _ _ s) h

/-- A transmitting body leaves the hold and `PIX` as they were, completed or faulted. -/
theorem Transmits.kept {n : Nat} {body : State → Run} (h : Transmits n body) {s t : State}
    (ht : body s = .ok t ∨ body s = .stop t) :
    t.ihold = s.ihold ∧ t.isave = s.isave ∧ t.ie = s.ie ∧ t.pix = s.pix := by
  obtain ⟨m, hst⟩ : ∃ m, Sent m 0 s t := by
    rcases h s with ⟨u, hu, hsu⟩ | ⟨u, hu, hsu⟩
    · rcases ht with ht | ht
      · cases hu.symm.trans ht; exact ⟨n, hsu⟩
      · cases hu.symm.trans ht
    · rcases ht with ht | ht
      · cases hu.symm.trans ht
      · cases hu.symm.trans ht; exact ⟨0, hsu⟩
  exact ⟨hst.ihold, hst.isave, hst.ie, by simpa using hst.pix⟩

/-- The same of a command with such a body. -/
theorem exec_transmits {n : Nat} {i : Instr} (hb : Transmits n (bodyOf i)) {s t : State}
    (h : exec i s = .next t) :
    t.ihold = s.ihold ∧ t.isave = s.isave ∧ t.ie = s.ie ∧ t.pix = s.pix := by
  obtain ⟨-, ⟨u, hu, rfl⟩ | ht⟩ := exec_next.1 h
  · exact hb.kept (t := u) (.inl hu)
  · exact hb.kept (.inr ht)

end Sys2Proof.Machine

namespace Sys2Proof.Proofs

open Sys2Proof Sys2Proof.Machine

/-- Settles O42: a host operation touches none of the registers, a command completes at rest or stops idle with the record
of where it stands (`step_resting`). -/
theorem stepKeepsResting : Obligations.StepKeepsResting := fun _ _ => step_resting

/-- Settles O15: a launch state has the registers of reset. -/
theorem launchIsResting : Obligations.LaunchIsResting :=
  ⟨launch_resting rfl, fun _ => launch_resting⟩

/-- Settles O43: the invariant holds at every launch and is kept by every step. -/
theorem reachableStatesRest : Obligations.ReachableStatesRest := fun _ => reachable_resting

/-- Settles O14: the fields of the reset state, read off. -/
theorem resetLeavesTheSpecValues : Obligations.ResetLeavesTheSpecValues :=
  ⟨rfl, rfl, rfl, rfl, rfl, rfl, rfl, rfl, rfl, rfl, rfl, State.gammaRead_zero _ rfl⟩

/-- Settles O13: under a hold the step is a fetched word's, which reads neither the host's state nor the schedule. -/
theorem holdKeepsTheHostOut : Obligations.HoldKeepsTheHostOut := by
  intro s t hi h
  rcases step_next h with ⟨op, rest, -, hi', -, -⟩ | ⟨w, hf, -, hw, hrun⟩
  · rw [hi] at hi'; cases hi'
  · have hk := runWord_hostUntouched hrun
    refine ⟨hk.buf, hk.rng, hk.rngOut, hk.anim, hk.sched, fun l => ?_⟩
    rw [step_word (s := { s with sched := l }) hf (State.hostDue_held hi) hw]
    exact runWord_sched l hrun

/-- Settles O44: the host adds no event, and a command only adds. -/
theorem traceOnlyGrows : Obligations.TraceOnlyGrows := by
  intro s t h
  obtain ⟨-, -, -, -, hgrows⟩ := step_configuration h
  exact hgrows

/-- Settles O45: no step writes table or order, and only the host's issuing writes the program. -/
theorem configurationNeverChanges : Obligations.ConfigurationNeverChanges := by
  intro s t h
  obtain ⟨hgamma, horder, hprog, hissued, -⟩ := step_configuration h
  exact ⟨hgamma, horder, hprog, hissued⟩

/-- Settles O46: the frame of every command. -/
theorem commandsLeaveTheHostAlone : Obligations.CommandsLeaveTheHostAlone := by
  intro i s t h
  have hk := exec_hostUntouched h
  exact ⟨hk.buf, hk.rng, hk.rngOut, hk.anim, hk.sched, hk.gamma, hk.order, hk.prog⟩

/-- Settles O47: five of the six transmit, and `LATCH` writes the trace alone. -/
theorem onlyHoldCommandsTouchInterrupts : Obligations.OnlyHoldCommandsTouchInterrupts := by
  intro i s t h hi
  cases i with
  | sendbit v => exact exec_transmits (transmits_sendBit v) h
  | sendbyte v => exact exec_transmits (transmits_sendByte v) h
  | wrcolor r g b => exact exec_transmits (transmits_wrColor _) h
  | wrhue hue => exact exec_transmits (transmits_wrHue hue) h
  | wrhuebr hue bri => exact exec_transmits (transmits_wrHueBr hue bri) h
  | latch =>
    rw [exec_latch (exec_next.1 h).1] at h
    cases h
    exact ⟨rfl, rfl, rfl, rfl⟩
  | ihold | irel | framer _ _ | framea => exact hi.elim

/-- Settles O48: the two endings of a command. -/
theorem commandPointerMovesUnlessFaulted : Obligations.CommandPointerMovesUnlessFaulted := by
  intro i s t h
  obtain ⟨hf, ⟨u, -, hk, hfu, rfl⟩ | ⟨-, hk, code, value, hft⟩⟩ := exec_kept h
  · exact ⟨hf, .inl ⟨hfu, congrArg (· + 1) hk.cp⟩⟩
  · exact ⟨hf, .inr ⟨_, hft, hk.cp, rfl, rfl⟩⟩

/-- Settles O49: a body completes with its cells sent or stops, and a stop leaves a fault. -/
theorem bitCellsPerCommand : Obligations.BitCellsPerCommand := by
  intro i s hf
  cases hb : bodyOf i s with
  | ok t =>
    obtain ⟨bits, htrace, hlen⟩ := bodyOf_appends hb
    exact ⟨_, exec_ok hf hb, fun _ => ⟨bits, htrace, by rw [hlen]; cases i <;> rfl⟩⟩
  | stop t =>
    refine ⟨t, exec_stop hf hb, fun hn => ?_⟩
    have hends := ends_bodyOf i s
    rw [hb, Ends, hf] at hends
    obtain ⟨-, code, value, hft⟩ := hends
    cases hn.symm.trans hft

/-- Settles O50: a command commutes with a change of what it does not read. -/
theorem tablesAreReadOnlyByTheirCommands : Obligations.TablesAreReadOnlyByTheirCommands := by
  intro i s t h hne
  rw [exec_eq_command] at h
  refine ⟨fun b => ?_, fun hbr g => ?_⟩
  · rw [exec_eq_command]
    exact command_unread (unread_buf b)
      (bodyOf_unread (unread_buf b) i (.inl fun _ _ => rfl) (.inr hne) s) h
  · rw [exec_eq_command]
    exact command_unread (unread_gamma g)
      (bodyOf_unread (unread_gamma g) i (.inr ⟨hbr, hne⟩) (.inl fun _ => rfl) s) h

end Sys2Proof.Proofs
end

section
/-! PROOFS. The family `41_color_encoder.md`: what `WRCOLOR`, `WRHUE` and `WRHUEBR` send and when they fault (R120, R124,
R127, R229), the color wheel (R125) and the scaled pixel (R128). -/

namespace Sys2Proof.Machine

/-! ## The commands under a hold -/

/-- `WRCOLOR` under a hold (R120). -/
theorem exec_wrcolor_held {s : State} (hf : s.fault = none) (hi : s.ihold = true) (r g b : Byte) :
    exec (.wrcolor r g b) s = .next (s.sent (colorEvents s.order ⟨r, g, b⟩)).advance :=
  exec_ok (i := .wrcolor r g b) hf (wrColor_held hi)

/-- `WRHUE` of a legal hue under a hold (R124). -/
theorem exec_wrhue_held {s : State} (hf : s.fault = none) (hi : s.ihold = true) {hue : Byte}
    (hh : hue.toNat < 192) :
    exec (.wrhue hue) s = .next (s.sent (colorEvents s.order (hueColor hue))).advance :=
  exec_ok (i := .wrhue hue) hf (wrHue_held hi hh)

/-- An illegal hue under a hold stops `WRHUE` before anything is sent (R124). -/
theorem wrHue_illegal {s : State} (hi : s.ihold = true) {hue : Byte} (hh : 192 ≤ hue.toNat) :
    wrHue hue s = raise .hueOutOfRange (byteValue hue) s := by
  rw [wrHue, checkHold_held hi, checkHue_illegal hh]

/-- The hue of `WRHUEBR` is checked before its brightness (R127, R229). -/
theorem wrHueBr_illegal_hue {s : State} (hi : s.ihold = true) {hue : Byte} (hh : 192 ≤ hue.toNat)
    (bri : Byte) : wrHueBr hue bri s = raise .hueOutOfRange (byteValue hue) s := by
  rw [wrHueBr, checkHold_held hi, checkHue_illegal hh]

theorem wrHueBr_illegal_bri {s : State} (hi : s.ihold = true) {hue bri : Byte}
    (hh : hue.toNat < 192) (hb : 6 < bri.toNat) :
    wrHueBr hue bri s = raise .brightnessOutOfRange (byteValue bri) s := by
  rw [wrHueBr, checkHold_held hi, checkHue_legal hh, checkBri_illegal hb]

/-- A command whose body raises a fault at once: the record is all that changes (R221). -/
theorem exec_raise {i : Instr} {code : FaultCode} {value : CW} {s : State} (hf : s.fault = none)
    (hb : bodyOf i s = raise code value s) :
    exec i s = .next (s.setFault (some ⟨code, s.cp, s.pix, value⟩)) :=
  exec_stop hf (hb.trans (raise_eq hf))

/-- Two commands whose bodies do the same do the same, in a stopped block as well. -/
theorem exec_congr {i j : Instr} {s : State} (h : bodyOf i s = bodyOf j s) : exec i s = exec j s := by
  rw [exec_eq_command, exec_eq_command, command, command, h]

/-! ## The ramps of a hue -/

theorem rampUp_toNat (hue : Byte) : (rampUp hue).toNat = 4 * (hue.toNat % 64) := by
  simp only [rampUp, hueStep, BitVec.toNat_ofNat]
  omega

theorem rampDown_toNat (hue : Byte) : (rampDown hue).toNat = 252 - 4 * (hue.toNat % 64) := by
  simp only [rampDown, hueStep, Config.full, BitVec.toNat_ofNat]
  omega

/-- The triple of a hue is its two ramps and a 0, placed by the phase (R124, R130). -/
theorem hueColor_cases (hue : Byte) :
    hueColor hue = ⟨rampDown hue, rampUp hue, 0⟩ ∨ hueColor hue = ⟨0, rampDown hue, rampUp hue⟩ ∨
      hueColor hue = ⟨rampUp hue, 0, rampDown hue⟩ := by
  unfold hueColor placeRamps
  split
  · exact .inl rfl
  · split
    · exact .inr (.inl rfl)
    · exact .inr (.inr rfl)

/-- The triple by its phase, from any two bytes that are the ramps (R122, R123, R130). -/
theorem hueColor_eq {hue up down : Byte} (hup : up.toNat = 4 * (hue.toNat % 64))
    (hsum : down.toNat + up.toNat = 252) :
    hueColor hue = if hue.toNat / 64 = 0 then ⟨down, up, 0⟩
      else if hue.toNat / 64 = 1 then ⟨0, down, up⟩ else ⟨up, 0, down⟩ := by
  have hu : rampUp hue = up := BitVec.eq_of_toNat_eq (by rw [rampUp_toNat, hup])
  have hd : rampDown hue = down := BitVec.eq_of_toNat_eq (by rw [rampDown_toNat]; omega)
  rw [← hu, ← hd]
  rfl

/-- The triple `r, g, b` of a hue whose step in its phase is `step`: a multiple of 4 in each channel, on the plane of sum
252, one channel 0, and two exactly at the ends of the phase (R125). -/
structure OnWheel (step : Nat) (r g b : Byte) : Prop where
  sum : r.toNat + g.toNat + b.toNat = 252
  dvd_r : 4 ∣ r.toNat
  dvd_g : 4 ∣ g.toNat
  dvd_b : 4 ∣ b.toNat
  zero : r = 0 ∨ g = 0 ∨ b = 0
  ends : (step = 0 ∨ step = 63) ↔ ((r = 0 ∧ g = 0) ∨ (g = 0 ∧ b = 0) ∨ (r = 0 ∧ b = 0))

/-- The wheel does not care where its phase begins. -/
theorem OnWheel.rotate {step : Nat} {r g b : Byte} (h : OnWheel step r g b) : OnWheel step b r g where
  sum := by have := h.sum; omega
  dvd_r := h.dvd_b
  dvd_g := h.dvd_r
  dvd_b := h.dvd_g
  zero := by have := h.zero; tauto
  ends := by rw [h.ends]; tauto

/-- The two ramps of a hue and a 0, in the places of the first phase. -/
theorem onWheel_ramps (hue : Byte) : OnWheel (hue.toNat % 64) (rampDown hue) (rampUp hue) 0 := by
  have h0 : (0 : Byte).toNat = 0 := rfl
  have hup := rampUp_toNat hue
  have hdown := rampDown_toNat hue
  have hup0 : rampUp hue = 0 ↔ hue.toNat % 64 = 0 := by
    rw [← BitVec.toNat_inj, hup, h0]; omega
  have hdown0 : rampDown hue = 0 ↔ hue.toNat % 64 = 63 := by
    rw [← BitVec.toNat_inj, hdown, h0]; omega
  refine ⟨?_, by omega, by omega, dvd_zero 4, .inr (.inr rfl), ?_⟩
  · rw [h0]; omega
  · simp only [hup0, hdown0, eq_self, and_true]; omega

theorem hueColor_onWheel (hue : Byte) :
    OnWheel (hue.toNat % 64) (hueColor hue).r (hueColor hue).g (hueColor hue).b := by
  rcases hueColor_cases hue with hc | hc | hc <;> rw [hc]
  · exact onWheel_ramps hue
  · exact (onWheel_ramps hue).rotate
  · exact (onWheel_ramps hue).rotate.rotate

/-- Two legal hues of one triple do the same under a hold. -/
theorem exec_wrhue_congr {s : State} (hi : s.ihold = true) {h k : Byte} (hh : h.toNat < 192)
    (hk : k.toNat < 192) (hc : hueColor h = hueColor k) : exec (.wrhue h) s = exec (.wrhue k) s :=
  exec_congr (by rw [bodyOf, bodyOf, wrHue_held hi hh, wrHue_held hi hk, hc])

/-! ## The gamma indexes -/

/-- What the two indexes lose by the shift together is what 63 loses: the two steps of a ramp add up to 63, whose low bits
are all ones (R128). -/
theorem gammaIndex_add (hue bri : Byte) :
    (gammaIndex (hueStep hue) bri).val + (gammaIndex (hueFall hue) bri).val = 63 >>> (6 - bri.toNat) := by
  simp only [gammaIndex, hueStep, hueFall, Config.briMax, Nat.shiftRight_eq_div_pow]
  generalize hn : 6 - bri.toNat = n
  have hn6 : n ≤ 6 := by omega
  interval_cases n <;> omega

/-- At brightness 0 every index is 0: the shift is by the whole width of a step (R128). -/
theorem gammaIndex_zero (x : Fin 64) : (gammaIndex x 0).val = 0 := by
  have hx := x.isLt
  change x.val >>> 6 = 0
  rw [Nat.shiftRight_eq_div_pow]
  omega

/-- The scaled triple by its phase, from any two indexes that are the shifted ramps (R126, R130). -/
theorem hueBrColor_eq {hue bri : Byte} {i j : Fin 64} (hi : i.val = (hue.toNat % 64) >>> (6 - bri.toNat))
    (hj : j.val = (63 - hue.toNat % 64) >>> (6 - bri.toNat)) (s : State) :
    hueBrColor s hue bri = if hue.toNat / 64 = 0 then ⟨s.gammaRead j, s.gammaRead i, 0⟩
      else if hue.toNat / 64 = 1 then ⟨0, s.gammaRead j, s.gammaRead i⟩
      else ⟨s.gammaRead i, 0, s.gammaRead j⟩ := by
  have hup : gammaIndex (hueStep hue) bri = i := Fin.ext hi.symm
  have hdown : gammaIndex (hueFall hue) bri = j := Fin.ext hj.symm
  rw [← hup, ← hdown]
  rfl

theorem hueBrColor_zero (s : State) (hue : Byte) : hueBrColor s hue 0 = Color.off := by
  rw [hueBrColor, State.gammaRead_zero s (gammaIndex_zero _), State.gammaRead_zero s (gammaIndex_zero _)]
  unfold placeRamps
  split_ifs <;> rfl

/-- Phase and rising index fix the scaled triple, for they fix the falling index (R128). -/
theorem hueBrColor_of_index {h k bri : Byte} (hp : h.toNat / 64 = k.toNat / 64)
    (hx : (h.toNat % 64) >>> (6 - bri.toNat) = (k.toNat % 64) >>> (6 - bri.toNat)) (s : State) :
    hueBrColor s h bri = hueBrColor s k bri := by
  have hup : gammaIndex (hueStep h) bri = gammaIndex (hueStep k) bri := Fin.ext hx
  have hdown : gammaIndex (hueFall h) bri = gammaIndex (hueFall k) bri := by
    have hh := gammaIndex_add h bri
    rw [← gammaIndex_add k bri, hup] at hh
    exact Fin.ext (Nat.add_left_cancel hh)
  have hphase : huePhase h = huePhase k := hp
  rw [hueBrColor, hueBrColor, hup, hdown, hphase]

end Sys2Proof.Machine

namespace Sys2Proof.Proofs

open Sys2Proof Sys2Proof.Machine

/-- Settles O20: the pixel's 24 events, and the raise of the check (O19). -/
theorem wrcolorSendsTheBytesInWireOrder : Obligations.WrcolorSendsTheBytesInWireOrder := by
  refine fun s r g b hf => ⟨fun hi => ?_, fun hi => ?_⟩
  · have horder : colorEvents s.order ⟨r, g, b⟩ = match s.order with
        | .grb => byteEvents g ++ byteEvents r ++ byteEvents b
        | .rgb => byteEvents r ++ byteEvents g ++ byteEvents b := by
      cases s.order <;> rfl
    rw [exec_wrcolor_held hf hi, horder]
    rfl
  · obtain ⟨-, -, hwrcolor, -, -⟩ := unprotectedCommandFaults.1 s hf hi
    exact hwrcolor r g b

/-- Settles O21: the triple by its phase, and the two checks in their order. -/
theorem wrhueSendsTheHuePixel : Obligations.WrhueSendsTheHuePixel := by
  refine fun s hue up down hf hup hsum => ⟨fun hi hh => ?_, fun hi hh => ?_, fun hi => ?_⟩
  · rw [exec_wrhue_held hf hi hh, hueColor_eq hup hsum]
    rfl
  · exact exec_raise hf (wrHue_illegal hi hh)
  · obtain ⟨-, -, -, hwrhue, -⟩ := unprotectedCommandFaults.1 s hf hi
    exact hwrhue hue

/-- Settles O22: the scaled triple by its phase, and the three checks in their order. -/
theorem wrhuebrSendsTheScaledPixel : Obligations.WrhuebrSendsTheScaledPixel := by
  refine fun s hue bri i j hf => ⟨fun hi hh hb hup hdown => ?_, fun hi hh hb => ?_, fun hi hh => ?_, fun hi => ?_⟩
  · rw [← hueBrColor_eq hup hdown s]
    exact exec_ok (i := .wrhuebr hue bri) hf (wrHueBr_held hi hh hb)
  · exact exec_raise hf (wrHueBr_illegal_bri hi hh hb)
  · exact exec_raise hf (wrHueBr_illegal_hue hi hh bri)
  · obtain ⟨-, -, -, -, hwrhuebr⟩ := unprotectedCommandFaults.1 s hf hi
    exact hwrhuebr hue bri

/-- Settles O24: the triple that is sent lies on the wheel. -/
theorem wrhuePixelsLieOnTheWheel : Obligations.WrhuePixelsLieOnTheWheel := by
  intro s hue hf hi hh
  have hw := hueColor_onWheel hue
  exact ⟨_, _, _, _, exec_wrhue_held hf hi hh, rfl, hw.sum, hw.dvd_r, hw.dvd_g, hw.dvd_b, hw.zero, hw.ends⟩

/-- Settles O25: at each seam the two hues have one triple. -/
theorem hueWheelCloses : Obligations.HueWheelCloses := by
  refine fun s hi => ⟨?_, ?_, ?_⟩
  · exact exec_wrhue_congr hi (by decide) (by decide) (by decide)
  · exact exec_wrhue_congr hi (by decide) (by decide) (by decide)
  · exact exec_wrhue_congr hi (by decide) (by decide) (by decide)

/-- Settles O26: both indexes are 0, and entry 0 of the table reads 0. -/
theorem brightnessZeroIsOff : Obligations.BrightnessZeroIsOff := by
  refine fun s hue hi hh => exec_congr ?_
  rw [bodyOf, bodyOf, wrHueBr_held hi hh (by decide), wrColor_held hi, hueBrColor_zero, Color.off]

/-- Settles O27: the indexes add up, so phase and rising index fix the triple, and the brightness is one. -/
theorem scaledPixelDependsOnItsIndex : Obligations.ScaledPixelDependsOnItsIndex := by
  refine ⟨gammaIndex_add, fun s h k bri hi hh hk hp hx => exec_congr ?_⟩
  rw [bodyOf, bodyOf, wrHueBr, wrHueBr, checkHold_held hi, checkHold_held hi, checkHue_legal hh,
    checkHue_legal hk]
  simp only [hueBrColor_of_index hp hx]

/-- Settles O28: the two orders write the same three bytes for the exchanged operands. -/
theorem wireOrderPermutesTheBytes : Obligations.WireOrderPermutesTheBytes := by
  intro s t r g b hi h
  have hf : s.fault = none := (exec_next.1 h).1
  rw [exec_wrcolor_held (s := { s with order := .grb }) hf hi] at h
  cases h
  exact exec_wrcolor_held (s := { s with order := .rgb }) hf hi g r b

end Sys2Proof.Proofs
end

section
/-! PROOFS. The family `42_frame_driver.md`: hold and release (R25), the two frame commands when all their pixels go out
(R154, R155, R157) and when they freeze at a bad one (R160), and the high time of a frame (R271). -/

namespace Sys2Proof.Machine

/-! ## The hold -/

/-- `IREL` right after `IHOLD` gives the host its interrupt enable back (R25, R150, R151). -/
theorem exec_irel_after_ihold {s : State} (hf : s.fault = none) (hi : s.ihold = false) :
    exec .irel (((s.setIsave s.ie).setIe false).setIhold true).advance
      = .next { s with isave := s.ie, cp := s.cp + 2 } := by
  refine (exec_irel_held (s := (((s.setIsave s.ie).setIe false).setIhold true).advance) hf rfl).trans ?_
  simp [State.advance, State.setIsave, State.setIe, State.setIhold, hi]

/-- A frame command inside a hold is misuse (R154, R155). -/
theorem exec_frame_misuse {i : Instr} {pixel : State → Run} (hb : bodyOf i = frame pixel) {s : State}
    (hf : s.fault = none) (hi : s.ihold = true) :
    exec i s = .next (s.setFault (some ⟨.holdMisuse, s.cp, s.pix, 1⟩)) :=
  exec_stop hf (by rw [hb, frame, beginHold_misuse hf hi, Run.bind_stop, Run.bind_stop])

/-! ## The events of a run of pixels -/

theorem pixelsEvents_eq_flatMap (order : Order) (color : Nat → Color) (n : Nat) :
    pixelsEvents order color 0 n = (List.range n).flatMap fun p => colorEvents order (color p) := by
  simp [pixelsEvents_eq, pixelsBits, List.map_flatMap, colorEvents_eq]

/-- A frame's sixteen pixels in order (R57). -/
theorem frameEvents_eq_flatMap (order : Order) (color : Nat → Color) :
    frameEvents order color = (List.range 16).flatMap fun p => colorEvents order (color p) :=
  pixelsEvents_eq_flatMap order color 16

theorem pixelLegal_iff {b : PixelBuffer} {p : BitVec 4} :
    pixelLegal b p = true ↔ (bufHue b p).toNat < 192 ∧ (bufBri b p).toNat ≤ 6 := by
  simp [pixelLegal]

/-! ## A frame that freezes -/

/-- A frame command whose pixel `p` raises a fault after the ones before it went out, begun in a resting state (R160): the
line and the working registers are idle there, so the pixels that went out leave them as they were. -/
theorem exec_frame_freezes {i : Instr} {pixel : State → Run} (hb : bodyOf i = frame pixel) {s : State}
    (hs : Resting s) (hf : s.fault = none) (hi : s.ihold = false) (p : BitVec 4) {color : Nat → Color}
    {code : FaultCode} {value : CW}
    (hpix : ∀ q, q < p.toNat → ∀ t, t.ihold = true → t.order = s.order → t.gamma = s.gamma →
      t.buf = s.buf → t.pix = BitVec.ofNat 5 q →
      pixel t = .ok (t.sent (colorEvents t.order (color q))))
    (hstop : ∀ t, t.ihold = true → t.buf = s.buf → t.pix = p.setWidth 5 → pixel t = raise code value t) :
    exec i s = .next
      { s with
        pix := p.setWidth 5, isave := s.ie, ie := false, ihold := true
        trace := s.trace ++ (List.range p.toNat).flatMap fun q => colorEvents s.order (color q)
        fault := some ⟨code, s.cp, p.setWidth 5, value⟩ } := by
  have hp : BitVec.ofNat 5 p.toNat = p.setWidth 5 := BitVec.ofNat_toNat 5 p
  have hframe := frame_stops p.toNat p.isLt hi hs.line_low hs.sr_zero hs.bc_zero hpix
    (fun t ht hbuf hpos => hstop t ht hbuf (hpos.trans hp))
  rw [hp, pixelsEvents_eq_flatMap] at hframe
  exact exec_stop hf (by rw [hb, hframe]; exact raise_eq hf)

/-- The active position of `FRAMER` as a place of the loop. -/
theorem ofNat_eq_position {pos : BitVec 4} {q : Nat} (hq : q < 16) :
    BitVec.ofNat 5 q = pos.setWidth 5 ↔ q = pos.toNat := by
  have hpos := pos.isLt
  rw [← BitVec.toNat_inj, BitVec.toNat_ofNat, BitVec.toNat_setWidth]
  omega

/-- Away from the active position `FRAMER`'s pixel is off, whatever the hue (R154). -/
theorem reactivePixel_off {pos : BitVec 4} (hue : Byte) {q : Nat} (hq : q < pos.toNat) {t : State}
    (ht : t.ihold = true) (hp : t.pix = BitVec.ofNat 5 q) :
    reactivePixel pos hue t = .ok (t.sent (colorEvents t.order Color.off)) := by
  have hne : t.pix ≠ pos.setWidth 5 := by
    rw [hp]
    exact mt (ofNat_eq_position (hq.trans pos.isLt)).1 hq.ne
  rw [reactivePixel, if_neg hne, wrColor_held ht]

/-- At the active position an illegal hue stops it (R154). -/
theorem reactivePixel_illegal {pos : BitVec 4} {hue : Byte} (hh : 192 ≤ hue.toNat) {t : State}
    (ht : t.ihold = true) (hp : t.pix = pos.setWidth 5) :
    reactivePixel pos hue t = raise .hueOutOfRange (byteValue hue) t := by
  rw [reactivePixel, if_pos hp, wrHue_illegal ht hh]

/-- `FRAMEA`'s pixel at position `p` is WRHUEBR of the entry there (R155, R161). -/
theorem ambientPixel_eq {t : State} {p : BitVec 4} (hp : t.pix = p.setWidth 5) :
    ambientPixel t = wrHueBr (bufHue t.buf p) (bufBri t.buf p) t := by
  have hpos : t.pix.setWidth 4 = p := by
    rw [hp, BitVec.setWidth_setWidth_of_le p (by decide), BitVec.setWidth_eq]
  rw [ambientPixel, State.pixRead, hpos]

/-! ## The high time of a frame -/

theorem oneBits_pulses (l : List Bool) : oneBits (l.map .pulse) = (l.map Bool.toNat).sum := by
  induction l with
  | nil => rfl
  | cons v l ih =>
    rw [List.map_cons, List.map_cons, List.sum_cons, ← ih, oneBits, oneBits, List.count_cons]
    cases v <;> simp [Nat.add_comm]

/-- A pixel's ones are those of its three bytes, in either order (R271). -/
theorem oneBits_colorEvents (order : Order) (c : Color) :
    oneBits (colorEvents order c) = popcount c.r + popcount c.g + popcount c.b := by
  rw [colorEvents_eq, oneBits_pulses, colorBits, List.map_append, List.map_append, List.sum_append,
    List.sum_append, sum_byteBits, sum_byteBits, sum_byteBits]
  cases order with
  | grb => exact congrArg (· + _) (Nat.add_comm _ _)
  | rgb => rfl

/-- Of sixteen positions one is the active one. -/
theorem sum_at_position (pos : BitVec 4) (n : Nat) :
    ((List.range 16).map fun p => if p = pos.toNat then n else 0).sum = n := by
  have hsum := Finset.sum_ite_eq' (Finset.range 16) pos.toNat fun _ => n
  rw [if_pos (Finset.mem_range.2 pos.isLt)] at hsum
  exact hsum

/-- The ones of a `FRAMER` are those of its lit pixel (R271). -/
theorem oneBits_reactive (order : Order) (pos : BitVec 4) (hue : Byte) :
    oneBits (frameEvents order (reactiveColor pos hue))
      = popcount (hueColor hue).r + popcount (hueColor hue).g + popcount (hueColor hue).b := by
  rw [frameEvents_eq_flatMap, oneBits, List.count_flatMap]
  refine Eq.trans (congrArg List.sum (List.map_congr_left fun p _ => ?_)) (sum_at_position pos _)
  refine (oneBits_colorEvents order (reactiveColor pos hue p)).trans ?_
  unfold reactiveColor
  split <;> rfl

/-- Every bit cell is high for 3 cycles, and each 1 for 4 more; the ones are at most all 384 cells (R271). -/
theorem highCycles_frame (order : Order) (color : Nat → Color) :
    highCycles (frameEvents order color) = 3 * 384 + 4 * oneBits (frameEvents order color) ∧
      1152 ≤ highCycles (frameEvents order color) ∧ highCycles (frameEvents order color) ≤ 2688 := by
  have hone : oneBits (frameEvents order color) ≤ 384 := by
    rw [← frameEvents_length order color]
    exact List.count_le_length
  have hhigh : highCycles (frameEvents order color) = 3 * 384 + 4 * oneBits (frameEvents order color) := by
    rw [frameEvents, pixelsEvents_eq, highCycles_pulses, oneBits_pulses, pixelsBits_length]
    rfl
  omega

end Sys2Proof.Machine

namespace Sys2Proof.Proofs

open Sys2Proof Sys2Proof.Machine

/-- Settles O31: the two commands one after the other. -/
theorem releaseRestoresTheInterruptEnable : Obligations.ReleaseRestoresTheInterruptEnable :=
  fun _ hf hi => ⟨_, exec_ihold_free hf hi, rfl, rfl, exec_irel_after_ihold hf hi⟩

/-- Settles O32: the sixteen pixels go out (`exec_framer_sends`), or the hold is misused. -/
theorem framerSendsOneFrame : Obligations.FramerSendsOneFrame := by
  refine fun s pos hue hf => ⟨fun hi hh => ?_, fun hi => exec_frame_misuse rfl hf hi⟩
  rw [exec_framer_sends hf hi pos hh, frameEvents_eq_flatMap]
  rfl

/-- Settles O33: the sixteen pixels go out (`exec_framea_sends`), or the hold is misused. -/
theorem frameaSendsTheBuffer : Obligations.FrameaSendsTheBuffer := by
  refine fun s hf => ⟨fun hi hl => ?_, fun hi => exec_frame_misuse rfl hf hi⟩
  rw [exec_framea_sends hf hi fun p => pixelLegal_iff.2 (hl p), frameEvents_eq_flatMap]
  rfl

/-- Settles O34: the pixels before the active one are off, and the active one raises the fault. -/
theorem framerFreezesAtTheActivePixel : Obligations.FramerFreezesAtTheActivePixel := by
  intro s pos hue hs hf hi hh
  exact exec_frame_freezes (i := .framer pos hue) rfl hs hf hi pos
    (fun q hq t ht _ _ _ hp => reactivePixel_off hue hq ht hp)
    (fun t ht _ hp => reactivePixel_illegal hh ht hp)

/-- Settles O35: the pixels before the first bad one are legal, and that one raises the fault of its hue, or of its
brightness when the hue is legal. -/
theorem frameaFreezesAtTheFirstBadPixel : Obligations.FrameaFreezesAtTheFirstBadPixel := by
  intro s p hs hf hi hbefore hbad
  have hsends : ∀ q, q < p.toNat → ∀ t, t.ihold = true → t.order = s.order → t.gamma = s.gamma →
      t.buf = s.buf → t.pix = BitVec.ofNat 5 q →
      ambientPixel t = .ok (t.sent (colorEvents t.order (ambientColor s q))) := by
    intro q hq t ht _ hg hb hp
    refine ambientPixel_sends (pixelLegal_iff.2 (hbefore _ ?_)) ht hg hb hp
    rw [BitVec.lt_def, BitVec.toNat_ofNat]
    omega
  by_cases hh : 192 ≤ (bufHue s.buf p).toNat
  · rw [if_pos hh]
    refine exec_frame_freezes (i := .framea) rfl hs hf hi p hsends fun t ht hb hp => ?_
    rw [ambientPixel_eq hp, hb]
    exact wrHueBr_illegal_hue ht hh _
  · rw [if_neg hh]
    refine exec_frame_freezes (i := .framea) rfl hs hf hi p hsends fun t ht hb hp => ?_
    rw [ambientPixel_eq hp, hb]
    exact wrHueBr_illegal_bri ht (Nat.lt_of_not_le hh) (hbad.resolve_left hh)

/-- Settles O37: a frame's 384 cells, and of `FRAMER` the one lit pixel. -/
theorem frameHighTimeCountsTheOnes : Obligations.FrameHighTimeCountsTheOnes := by
  intro s hf hi
  refine ⟨fun pos hue hh => ?_, fun hl => ?_⟩
  · obtain ⟨hhigh, hlow, hup⟩ := highCycles_frame s.order (reactiveColor pos hue)
    exact ⟨_, _, exec_framer_sends hf hi pos hh, rfl, hhigh, hlow, hup, oneBits_reactive s.order pos hue⟩
  · obtain ⟨hhigh, hlow, hup⟩ := highCycles_frame s.order (ambientColor s)
    exact ⟨_, _, exec_framea_sends hf hi hl, rfl, hhigh, hlow, hup⟩

end Sys2Proof.Proofs
end

section
/-! PROOFS. The family of the receiver view (`20_memory.md` section 4): how a trace is cut (R59 to R61), and what the LEDs
make of a latched frame, of surplus and of missing bits (R61, R62, R159). -/

namespace Sys2Proof.Machine

/-! ## The cut of a trace -/

theorem segments_append (l m : List Event) : segments (l ++ m) = m.foldl Segments.push (segments l) :=
  List.foldl_append

/-- Pulses add to the pending segment (R59). -/
theorem segments_pulses (t : List Event) (bits : List Bool) :
    segments (t ++ bits.map .pulse) = ⟨(segments t).latched, (segments t).pending ++ bits⟩ := by
  rw [segments_append, foldl_push_pulses]

/-- A latch ends the pending segment (R61). -/
theorem segments_latch (t : List Event) :
    segments (t ++ [.latch]) = ⟨(segments t).latched ++ [(segments t).pending], []⟩ :=
  segments_append t [.latch]

/-- A gap is dropped (R60). -/
theorem segments_gap (l m : List Event) : segments (l ++ .gap :: m) = segments (l ++ m) := by
  rw [segments_append, segments_append]
  rfl

/-- Without a latch no segment is latched. -/
theorem latched_of_no_latch {t : List Event} (h : Event.latch ∉ t) : (segments t).latched = [] := by
  induction t using List.reverseRecOn with
  | nil => rfl
  | append_singleton t e ih =>
    rw [List.mem_append, List.mem_singleton, not_or] at h
    rw [segments_append]
    cases e with
    | pulse v => exact ih h.1
    | gap => exact ih h.1
    | latch => exact absurd rfl h.2

/-! ## A LED after one more latched segment -/

/-- A latch lets every LED see the pending segment (R61). -/
theorem ledAfter_latch (order : Order) (t : List Event) (q : Nat) :
    ledAfter order (t ++ [.latch]) q = ledStep order q (ledAfter order t q) (segments t).pending := by
  rw [ledAfter, segments_latch, List.foldl_append]
  rfl

/-- With nothing pending before it, a latched stretch of pulses is the segment a LED sees. -/
theorem ledAfter_pulses_latch (order : Order) {t : List Event} (h : (segments t).pending = [])
    {bits : List Bool} (hb : bits ≠ []) (q : Nat) :
    ledAfter order (t ++ bits.map .pulse ++ [.latch]) q = shown order bits q := by
  rw [ledAfter_latch, segments_pulses, h, List.nil_append, ledStep, if_neg hb]

/-- A LED reached by fewer than 24 bits is unspecified (R62 a, b). -/
theorem shown_short (order : Order) {seg : List Bool} {q : Nat} (h : seg.length < 24 * (q + 1)) :
    shown order seg q = none :=
  if_neg fun hq => Nat.not_le_of_lt h hq.2

/-- A stretch of a list that ends before its end is not changed by what is appended. -/
theorem take_drop_append_left {α : Type} {l m : List α} {k n : Nat} (h : k + n ≤ l.length) :
    ((l ++ m).drop k).take n = (l.drop k).take n := by
  rw [List.drop_append_of_le_length (by omega), List.take_append_of_le_length (by rw [List.length_drop]; omega)]

/-- The block after a first part of known length. -/
theorem take_drop_block {α : Type} {l m r : List α} {k n : Nat} (hl : l.length = k) (hm : m.length = n) :
    ((l ++ m ++ r).drop k).take n = m := by
  rw [List.append_assoc, List.drop_left' hl, List.take_left' hm]

/-- Bits beyond those of the sixteen LEDs are lost (R62 c): each LED takes its 24 from those before. -/
theorem shown_append (order : Order) {l : List Bool} (m : List Bool) {q : Nat}
    (h : q < 16 → 24 * (q + 1) ≤ l.length) : shown order (l ++ m) q = shown order l q := by
  unfold shown
  by_cases hq : q < 16
  · have hlen := h hq
    rw [if_pos ⟨hq, by rw [List.length_append]; omega⟩, if_pos ⟨hq, hlen⟩,
      take_drop_append_left (by omega), take_drop_append_left (by omega), take_drop_append_left (by omega)]
  · rw [if_neg fun hc => hq hc.1, if_neg fun hc => hq hc.1]

/-- A LED shows the pixel whose 24 bits come after those of the LEDs before it (R61). -/
theorem shown_colorBits (order : Order) (c : Color) {l : List Bool} (m : List Bool) {q : Nat} (hq : q < 16)
    (hl : l.length = 24 * q) : shown order (l ++ colorBits order c ++ m) q = some c := by
  have hlen : 24 * (q + 1) ≤ (l ++ colorBits order c ++ m).length := by
    rw [List.length_append, List.length_append, colorBits_length]; omega
  have h0 : ((l ++ colorBits order c ++ m).drop (24 * q)).take 8 = byteBits (wire order c).1 := by
    simp only [colorBits, ← List.append_assoc]
    rw [List.append_assoc _ _ m, List.append_assoc (l ++ _)]
    exact take_drop_block hl rfl
  have h1 : ((l ++ colorBits order c ++ m).drop (24 * q + 8)).take 8 = byteBits (wire order c).2.1 := by
    simp only [colorBits, ← List.append_assoc]
    rw [List.append_assoc _ _ m]
    exact take_drop_block (by simp [hl]) rfl
  have h2 : ((l ++ colorBits order c ++ m).drop (24 * q + 16)).take 8 = byteBits (wire order c).2.2 := by
    simp only [colorBits, ← List.append_assoc]
    exact take_drop_block (by simp [hl]) rfl
  rw [shown, if_pos ⟨hq, hlen⟩, h0, h1, h2, byteOfBits_byteBits, byteOfBits_byteBits, byteOfBits_byteBits,
    unwire_wire]

/-! ## A latched frame -/

/-- The 384 bits of a frame (R57). -/
def frameBits (order : Order) (color : Nat → Color) : List Bool := pixelsBits order color 0 16

theorem frameEvents_eq_bits (order : Order) (color : Nat → Color) :
    frameEvents order color = (frameBits order color).map .pulse :=
  pixelsEvents_eq order color 0 16

@[simp] theorem frameBits_length (order : Order) (color : Nat → Color) : (frameBits order color).length = 384 :=
  pixelsBits_length order color 0 16

theorem pixelsBits_add (order : Order) (color : Nat → Color) (p m n : Nat) :
    pixelsBits order color p (m + n) = pixelsBits order color p m ++ pixelsBits order color (p + m) n := by
  simp [pixelsBits, List.range_add, List.flatMap_map, Nat.add_assoc]

/-- A LED shows the color of its position of the frame (R61, R157). -/
theorem shown_frameBits (order : Order) (color : Nat → Color) {q : Nat} (hq : q < 16) :
    shown order (frameBits order color) q = some (color q) := by
  have hsplit : frameBits order color = pixelsBits order color 0 q ++ colorBits order (color q)
      ++ pixelsBits order color (q + 1) (15 - q) := by
    obtain ⟨r, hr⟩ : ∃ r, 16 = q + (r + 1) := ⟨15 - q, by omega⟩
    have hr' : 15 - q = r := by omega
    rw [frameBits, hr, pixelsBits_add, pixelsBits_succ, Nat.zero_add, hr', List.append_assoc]
  rw [hsplit]
  exact shown_colorBits order (color q) _ hq (pixelsBits_length order color 0 q)

theorem ne_nil_of_le_length {l : List Bool} {n : Nat} (h : n ≤ l.length) (hn : 0 < n) : l ≠ [] :=
  List.ne_nil_of_length_pos (hn.trans_le h)

@[simp] theorem State.framed_order (s : State) (l : List Event) : (s.framed l).order = s.order := rfl

/-- A frame and the latch after it, sent with nothing pending, are what the LEDs display (R61, R159). -/
theorem framed_latch_displayed {s : State} (hf : s.fault = none) (hp : (segments s.trace).pending = [])
    (color : Nat → Color) :
    ∃ u, exec .latch (s.framed (frameEvents s.order color)) = .next u ∧
      ∀ q, q < 16 → ledAfter s.order u.trace q = some (color q) := by
  refine ⟨_, exec_latch hf, fun q hq => ?_⟩
  rw [← shown_frameBits s.order color hq]
  have hne : frameBits s.order color ≠ [] := ne_nil_of_le_length (frameBits_length _ _).ge (by decide)
  rw [← ledAfter_pulses_latch s.order hp hne q, ← frameEvents_eq_bits]
  rfl

end Sys2Proof.Machine

namespace Sys2Proof.Proofs

open Sys2Proof Sys2Proof.Machine

/-- Settles O38: each frame command sends the frame of its colors, which the latch makes the LEDs display. -/
theorem latchedFrameIsDisplayed : Obligations.LatchedFrameIsDisplayed := by
  intro s hf hi hp
  refine ⟨fun pos hue hh => ?_, fun hl => ?_⟩
  · obtain ⟨u, hu, hled⟩ := framed_latch_displayed hf hp (reactiveColor pos hue)
    exact ⟨_, u, exec_framer_sends hf hi pos hh, hu, hled⟩
  · obtain ⟨u, hu, hled⟩ := framed_latch_displayed hf hp (ambientColor s)
    exact ⟨_, u, exec_framea_sends hf hi hl, hu, hled⟩

/-- Settles O39: the segment is the bits of both frames, and the LEDs take their 24 bits from the first. -/
theorem secondFrameWithoutLatchIsLost : Obligations.SecondFrameWithoutLatchIsLost := by
  intro s p₁ p₂ h₁ h₂ hf hi hp hh₁ hh₂
  have hu := exec_framer_sends (s := s.framed (frameEvents s.order (reactiveColor p₁ h₁))) hf hi p₂ hh₂
  rw [State.framed_order] at hu
  have hcut : segments ((s.framed (frameEvents s.order (reactiveColor p₁ h₁))).framed
      (frameEvents s.order (reactiveColor p₂ h₂))).trace
        = ⟨(segments s.trace).latched,
            frameBits s.order (reactiveColor p₁ h₁) ++ frameBits s.order (reactiveColor p₂ h₂)⟩ := by
    rw [State.framed_trace, State.framed_trace, frameEvents_eq_bits, frameEvents_eq_bits, segments_pulses,
      segments_pulses, hp, List.nil_append]
  refine ⟨_, _, _, exec_framer_sends hf hi p₁ hh₁, hu, exec_latch hf, ?_, ?_, fun q hq => ?_⟩
  · rw [State.advance_trace, State.emit_trace, segments_latch, hcut]
  · rw [hcut, List.length_append, frameBits_length, frameBits_length]
  · have hfirst : 24 * (q + 1) ≤ (frameBits s.order (reactiveColor p₁ h₁)).length := by
      rw [frameBits_length]; omega
    have hne : frameBits s.order (reactiveColor p₁ h₁) ≠ [] := ne_nil_of_le_length hfirst (by omega)
    rw [State.advance_trace, State.emit_trace, ledAfter_latch, hcut, ledStep,
      if_neg (List.append_ne_nil_of_left_ne_nil hne _), shown_append _ _ fun _ => hfirst, shown_frameBits _ _ hq]

/-- Settles O40: the cut drops the gap. -/
theorem gapsCarryNothing : Obligations.GapsCarryNothing :=
  fun _ l m _ => ⟨segments_gap l m, by rw [ledAfter, ledAfter, segments_gap]⟩

/-- Settles O41: no segment has been latched. -/
theorem ledsAreUnspecifiedBeforeALatch : Obligations.LedsAreUnspecifiedBeforeALatch := by
  intro order t q h
  rw [ledAfter, latched_of_no_latch h]
  rfl

/-- Settles O59: the latched segment is the bits sent, of which each LED takes its own 24 or knows nothing. -/
theorem unreachedLedsAreUnspecified : Obligations.UnreachedLedsAreUnspecified := by
  refine fun order t q hp => ⟨fun bits hne hlen => ?_, fun bits more hlen => ?_, ?_⟩
  · rw [ledAfter_pulses_latch order hp hne, shown_short order hlen]
  · have hne := ne_nil_of_le_length hlen (by decide)
    rw [ledAfter_pulses_latch order hp hne, ledAfter_pulses_latch order hp (List.append_ne_nil_of_left_ne_nil hne _),
      shown_append order more fun _ => by omega]
  · rw [ledAfter_latch, hp, ledStep, if_pos rfl]

end Sys2Proof.Proofs
end

section
/-! PROOFS. The family `43_host_environment.md`: the generator's step (R182, R183), the domains of the buffer operations
(R172), and the cycle of the animation's ticks (R188, R191). -/

namespace Sys2Proof.Machine

/-! ## The generator and the buffer -/

/-- `next` of a nonzero bound (R182). -/
theorem hostDo_next_bound {bound : Nat} (h : bound ≠ 0) (s : State) :
    hostDo (.next bound) s = .next (randomNext bound s) := if_neg h

theorem bufferLegal_iff {b : PixelBuffer} :
    BufferLegal b ↔ ∀ p, (bufHue b p).toNat < 192 ∧ (bufBri b p).toNat ≤ 6 :=
  forall_congr' fun _ => pixelLegal_iff

theorem bufferLegal_bufSet {b : PixelBuffer} (h : BufferLegal b) (p : BitVec 4) {hue : Byte}
    (hh : hue.toNat < 192) : BufferLegal (bufSet p hue b) := by
  rw [bufferLegal_iff] at h ⊢
  intro q
  rw [bufHue_bufSet, bufBri_bufSet]
  by_cases hq : q = p
  · rw [if_pos hq, if_pos hq]; exact ⟨hh, by decide⟩
  · rw [if_neg hq, if_neg hq]; exact h q

theorem bufferLegal_bufFill {b : PixelBuffer} (h : BufferLegal b) {hue : Byte} (hh : hue.toNat < 192) :
    BufferLegal (bufFill hue b) := by
  rw [bufferLegal_iff] at h ⊢
  intro q
  rw [bufHue_bufFill, bufBri_bufFill]
  exact ⟨hh, (h q).2⟩

theorem bufferLegal_bufClear {b : PixelBuffer} (h : BufferLegal b) : BufferLegal (bufClear b) := by
  rw [bufferLegal_iff] at h ⊢
  intro q
  rw [bufHue_bufClear, bufBri_bufClear]
  exact ⟨(h q).1, by decide⟩

theorem bufferLegal_bufFadeIn {b : PixelBuffer} (h : BufferLegal b) : BufferLegal (bufFadeIn b) := by
  rw [bufferLegal_iff] at h ⊢
  intro q
  rw [bufHue_bufFadeIn, toNat_bufBri_bufFadeIn]
  have hq := h q
  exact ⟨hq.1, by split <;> omega⟩

theorem bufferLegal_bufFadeOut {b : PixelBuffer} (h : BufferLegal b) : BufferLegal (bufFadeOut b) := by
  rw [bufferLegal_iff] at h ⊢
  intro q
  rw [bufHue_bufFadeOut, toNat_bufBri_bufFadeOut]
  have hq := h q
  exact ⟨hq.1, by omega⟩

theorem bufferLegal_bufRotate {b : PixelBuffer} (h : BufferLegal b) (k : BitVec 4) :
    BufferLegal (bufRotate k b) := by
  rw [bufferLegal_iff] at h ⊢
  intro q
  rw [bufHue_bufRotate, bufBri_bufRotate]
  exact h (q + k)

/-! ## One tick's count -/

/-- Above 1 the count goes down and nothing else (R188). -/
theorem animCount_above {a : Anim} (h : 1 < a.countdown) :
    animCount a = { a with countdown := a.countdown - 1 } := if_neg (Nat.not_le_of_lt h)

/-- At 1 or below the next state is entered (R188). -/
theorem animCount_out {a : Anim} (h : a.countdown ≤ 1) : animCount a = animEnter (a.state + 1) a := if_pos h

@[simp] theorem animEnter_state (k : BitVec 3) (a : Anim) : (animEnter k a).state = k := rfl
@[simp] theorem animEnter_countdown (k : BitVec 3) (a : Anim) :
    (animEnter k a).countdown = if k = 0 then 1 else 76 := rfl

/-- State 0 is entered with the parameters of its last visit, drifted, and that is its visit now (R191). -/
theorem animEnter_zero (a : Anim) :
    (animEnter 0 a).params = visitParams a.visit0 ∧ (animEnter 0 a).visit0 = visitParams a.visit0 := ⟨rfl, rfl⟩

/-- The entry of another state leaves the last visit of state 0 as it is. -/
theorem animEnter_visit0 {k : BitVec 3} (h : k ≠ 0) (a : Anim) : (animEnter k a).visit0 = a.visit0 := if_neg h

theorem toNat_state_succ (k : BitVec 3) : (k + 1).toNat = (k.toNat + 1) % 8 := BitVec.toNat_add k 1

/-- How far a hue has drifted, reduced (R191). -/
theorem visitParams_hue1 (q : AnimParams) :
    (visitParams q).hue1.toNat = (q.hue1.toNat + (Config.hueDrift q).1.toNat) % 192 := by
  simp only [visitParams, Config.hueMod, BitVec.toNat_ofNat]
  omega

theorem visitParams_hue2 (q : AnimParams) :
    (visitParams q).hue2.toNat = (q.hue2.toNat + (Config.hueDrift q).2.toNat) % 192 := by
  simp only [visitParams, Config.hueMod, BitVec.toNat_ofNat]
  omega

/-! ## The cycle of 533 ticks -/

/-- A whole tick counts on an animation in which its action has written the parameters alone (R188). -/
theorem tickEffect_anim (s : State) :
    ∃ a, (tickEffect s).anim = animCount a ∧ a.state = s.anim.state ∧ a.countdown = s.anim.countdown ∧
      a.visit0 = s.anim.visit0 := ⟨_, rfl, rfl, rfl, rfl⟩

/-- A tick that is not the last of its state. -/
theorem tickEffect_above {s : State} (h : 1 < s.anim.countdown) :
    (tickEffect s).anim.state = s.anim.state ∧ (tickEffect s).anim.countdown = s.anim.countdown - 1 ∧
      (tickEffect s).anim.visit0 = s.anim.visit0 := by
  obtain ⟨a, ha, hs, hc, hv⟩ := tickEffect_anim s
  rw [← hc] at h
  rw [ha, animCount_above h, ← hs, ← hc, ← hv]
  exact ⟨rfl, rfl, rfl⟩

/-- The last tick of a state other than 7. -/
theorem tickEffect_enter {s : State} (h : s.anim.countdown ≤ 1) (h7 : s.anim.state.toNat < 7) :
    (tickEffect s).anim.state.toNat = s.anim.state.toNat + 1 ∧ (tickEffect s).anim.countdown = 76 ∧
      (tickEffect s).anim.visit0 = s.anim.visit0 := by
  obtain ⟨a, ha, hs, hc, hv⟩ := tickEffect_anim s
  rw [← hc] at h
  rw [← hs] at h7
  have hnat : (a.state + 1).toNat = a.state.toNat + 1 := by rw [toNat_state_succ]; omega
  have hne : a.state + 1 ≠ 0 := fun h0 => by rw [h0] at hnat; exact absurd hnat (by simp)
  rw [ha, animCount_out h, animEnter_state, animEnter_countdown, if_neg hne, animEnter_visit0 hne, ← hs, ← hv]
  exact ⟨hnat, rfl, rfl⟩

/-- The last tick of state 7 closes the cycle (R191). -/
theorem tickEffect_close {s : State} (h : s.anim.countdown ≤ 1) (h7 : s.anim.state = 7) :
    (tickEffect s).anim.state = 0 ∧ (tickEffect s).anim.countdown = 1 ∧
      (tickEffect s).anim.params = visitParams s.anim.visit0 ∧
      (tickEffect s).anim.visit0 = visitParams s.anim.visit0 := by
  obtain ⟨a, ha, hs, hc, hv⟩ := tickEffect_anim s
  rw [← hc] at h
  have h0 : a.state + 1 = 0 := by rw [hs, h7]; rfl
  rw [ha, animCount_out h, h0, ← hv]
  exact ⟨rfl, rfl, animEnter_zero a⟩

/-- Where the cycle stands `j + 1` ticks after the entry of state 0: seven states of 76 ticks each follow (R188). -/
theorem tickEffect_cycle {s : State} (h0 : s.anim.state = 0) (h1 : s.anim.countdown = 1) {j : Nat}
    (hj : j < 532) :
    (tickEffect^[j + 1] s).anim.state.toNat = j / 76 + 1 ∧
      (tickEffect^[j + 1] s).anim.countdown = 76 - j % 76 ∧
      (tickEffect^[j + 1] s).anim.visit0 = s.anim.visit0 := by
  induction j with
  | zero =>
    obtain ⟨hs, hc, hv⟩ := tickEffect_enter h1.le (by rw [h0]; decide)
    exact ⟨by rw [Function.iterate_one, hs, h0]; rfl, hc, hv⟩
  | succ j ih =>
    obtain ⟨hs, hc, hv⟩ := ih (by omega)
    rw [Function.iterate_succ_apply']
    rcases Nat.lt_or_ge (j % 76) 75 with hm | hm
    · obtain ⟨hs', hc', hv'⟩ := tickEffect_above (s := tickEffect^[j + 1] s) (by omega)
      exact ⟨by rw [hs', hs]; omega, by rw [hc', hc]; omega, hv'.trans hv⟩
    · obtain ⟨hs', hc', hv'⟩ := tickEffect_enter (s := tickEffect^[j + 1] s) (by omega) (by omega)
      exact ⟨by rw [hs', hs]; omega, by rw [hc']; omega, hv'.trans hv⟩

/-- The 533rd tick enters state 0 again (R191, C6). -/
theorem tickEffect_cycle_closes {s : State} (h0 : s.anim.state = 0) (h1 : s.anim.countdown = 1) :
    (tickEffect^[533] s).anim.state = 0 ∧ (tickEffect^[533] s).anim.countdown = 1 ∧
      (tickEffect^[533] s).anim.params = visitParams s.anim.visit0 ∧
      (tickEffect^[533] s).anim.visit0 = visitParams s.anim.visit0 := by
  have hlast : tickEffect^[533] s = tickEffect (tickEffect^[531 + 1] s) :=
    Function.iterate_succ_apply' tickEffect 532 s
  obtain ⟨hs, hc, hv⟩ := tickEffect_cycle h0 h1 (j := 531) (by decide)
  rw [hlast, ← hv]
  exact tickEffect_close hc.le (BitVec.eq_of_toNat_eq hs)

end Sys2Proof.Machine

namespace Sys2Proof.Proofs

open Sys2Proof Sys2Proof.Machine

/-- Settles O55: the advance bit by bit (`lfsrAdvance_bit`), and the remainder is below its bound. -/
theorem randomStepAdvancesTheRegister : Obligations.RandomStepAdvancesTheRegister := by
  refine ⟨fun s bound hb => ⟨lfsrAdvance s.rng, fun k _ => lfsrAdvance_bit s.rng, hostDo_next_bound hb s,
    Nat.mod_lt _ (Nat.pos_of_ne_zero hb), lfsrAdvance_eq_zero⟩, fun s => rfl⟩

/-- Settles O56: the count by its two cases, and the cycle of 1 and seven times 76 ticks. -/
theorem tickCountsTheStates : Obligations.TickCountsTheStates := by
  refine ⟨fun s t ht => ?_, fun s => ⟨animCount s.anim, rfl, animCount_above, fun h => ?_⟩,
    Config.hueDrift, fun s h0 h1 hv => ?_⟩
  · cases ht
    exact ⟨rfl, rfl, fun u hu => by cases hu; exact ⟨rfl, rfl, rfl⟩⟩
  · rw [animCount_out h]
    exact ⟨toNat_state_succ s.anim.state, rfl⟩
  · obtain ⟨hs, hc, hq, hq0⟩ := tickEffect_cycle_closes h0 h1
    rw [hv] at hq hq0
    refine ⟨hs, hc, hq0.trans hq.symm, fun k hk hk' hz => ?_, ?_⟩
    · obtain ⟨j, rfl⟩ := Nat.exists_eq_succ_of_ne_zero hk.ne'
      have hnat := (tickEffect_cycle h0 h1 (j := j) (by omega)).1
      rw [hz] at hnat
      exact absurd hnat (by simp)
    · rw [hq]
      exact ⟨rfl, rfl, visitParams_hue1 _, visitParams_hue2 _⟩

/-- Settles O57: position by position, each operation writes a value of the domain or keeps one. -/
theorem bufferOperationsStayLegal : Obligations.BufferOperationsStayLegal := by
  intro b h
  obtain ⟨k, -, hcw, hccw⟩ := exists_clockwise_shift
  refine ⟨fun p hue hh => bufferLegal_bufSet h p hh, fun hue hh => bufferLegal_bufFill h hh,
    bufferLegal_bufClear h, bufferLegal_bufFadeIn h, bufferLegal_bufFadeOut h, ?_, ?_⟩
  · rw [hcw]; exact bufferLegal_bufRotate h k
  · rw [hccw]; exact bufferLegal_bufRotate h (-k)

end Sys2Proof.Proofs
end

section
/-! PROOFS. The family `43_host_environment.md`: the course of the reactive spin (R186, R202), and the frames the spin and
the animation issue (R188, R199, R203; log 25). -/

namespace Sys2Proof.Machine

/-! ## One step of the spin -/

theorem spinStep_armed {p : Spin} (h : p.phase = .armed) : spinStep p = p := by
  simp only [spinStep, h]

theorem spinStep_faster {p : Spin} (h : p.phase = .faster) :
    spinStep p =
      { spinMove p with speed := p.speed - 1, phase := if p.speed - 1 ≤ 1 then .slower else .faster } := by
  simp only [spinStep, h]

theorem spinStep_slower {p : Spin} (h : p.phase = .slower) :
    spinStep p =
      { spinMove p with speed := p.speed + 1, phase := if 96 ≤ p.speed + 1 then .waiting else .slower } := by
  simp only [spinStep, h]

theorem spinStep_waiting {p : Spin} (h : p.phase = .waiting) :
    spinStep p = if p.pressed then p else { p with phase := .armed } := by
  simp only [spinStep, h]

/-- A press of an armed spin starts it (R186). -/
theorem spinPress_armed {p : Spin} (h : p.phase = .armed) (counter : Nat) :
    spinPress counter p = { p with phase := .faster, speed := 16 + counter % 16, pressed := true } := by
  simp only [spinPress, h]

/-- A press at another time only marks the button down (log 20). -/
theorem spinPress_not_armed {p : Spin} (h : p.phase ≠ .armed) (counter : Nat) :
    spinPress counter p = { p with pressed := true } := by
  unfold spinPress
  split
  · exact absurd ‹_› h
  · rfl
  · rfl
  · rfl

/-- A press writes the spin alone. -/
theorem hostDo_press {s : State} {counter : Nat} {p : Spin} (h : spinPress counter s.anim.spin = p) :
    hostDo (.press counter) s = .next { s with anim := { s.anim with spin := p } } := by
  rw [← h]; rfl

/-- The spin turns in its two moving phases. -/
theorem turning_iff {p : Spin} : p.turning = true ↔ p.phase = .faster ∨ p.phase = .slower := by
  simp [Spin.turning]

/-- A turning step wraps its hue (R172, R186). -/
theorem spinStep_hue_of_turning {p : Spin} (h : p.phase = .faster ∨ p.phase = .slower) :
    (spinStep p).hue.toNat < 192 := by
  rcases h with h | h
  · rw [spinStep_faster h]; exact wrapHue_lt _
  · rw [spinStep_slower h]; exact wrapHue_lt _

/-- Any other step keeps the hue. -/
theorem spinStep_hue {p : Spin} (h : p.hue.toNat < 192) : (spinStep p).hue.toNat < 192 := by
  cases hp : p.phase with
  | armed => rw [spinStep_armed hp]; exact h
  | faster => exact spinStep_hue_of_turning (.inl hp)
  | slower => exact spinStep_hue_of_turning (.inr hp)
  | waiting => rw [spinStep_waiting hp]; split <;> exact h

/-! ## The course of the spin -/

/-- The speed, phase and button of a spin, for the steps on its way. -/
def Spin.At (p : Spin) (speed : Nat) (phase : SpinPhase) : Prop :=
  p.speed = speed ∧ p.phase = phase ∧ p.pressed = true

/-- Down to 1: `k` steps take `k` off the speed, and at 1 the spin begins to slow down (R186). -/
theorem spin_falls {p : Spin} {n : Nat} (h : p.At (n + 2) .faster) {k : Nat} (hk : k ≤ n + 1) :
    (spinStep^[k] p).At (n + 2 - k) (if k = n + 1 then .slower else .faster) := by
  induction k with
  | zero => rw [if_neg (by omega)]; exact h
  | succ k ih =>
    have ih := ih (by omega)
    rw [if_neg (by omega)] at ih
    obtain ⟨hspeed, hphase, hpressed⟩ := ih
    rw [Function.iterate_succ_apply', spinStep_faster hphase, hspeed]
    refine ⟨by rw [Nat.sub_sub], ?_, hpressed⟩
    exact if_congr (by omega) rfl rfl

/-- Up to 96: `k` steps add `k` to the speed, and at 96 the spin waits (R186). -/
theorem spin_rises {p : Spin} (h : p.At 1 .slower) {k : Nat} (hk : k ≤ 95) :
    (spinStep^[k] p).At (1 + k) (if k = 95 then .waiting else .slower) := by
  induction k with
  | zero => exact h
  | succ k ih =>
    have ih := ih (by omega)
    rw [if_neg (by omega)] at ih
    obtain ⟨hspeed, hphase, hpressed⟩ := ih
    rw [Function.iterate_succ_apply', spinStep_slower hphase, hspeed]
    refine ⟨rfl, ?_, hpressed⟩
    exact if_congr (by omega) rfl rfl

/-- With the button down a waiting spin stays as it is (R202). -/
theorem spin_waits {p : Spin} {speed : Nat} (h : p.At speed .waiting) (k : Nat) : spinStep^[k] p = p := by
  obtain ⟨-, hphase, hpressed⟩ := h
  exact Function.iterate_fixed (by rw [spinStep_waiting hphase, if_pos hpressed]) k

section

variable {p : Spin} {n : Nat} (h : p.At (n + 2) .faster)
include h

/-- The steps up, counted from the press. -/
theorem spin_rises_after {k : Nat} (hk : k ≤ 95) :
    (spinStep^[n + 1 + k] p).At (1 + k) (if k = 95 then .waiting else .slower) := by
  have hbottom := spin_falls h (k := n + 1) le_rfl
  rw [if_pos rfl, Nat.add_sub_add_left] at hbottom
  rw [Nat.add_comm, Function.iterate_add_apply]
  exact spin_rises hbottom hk

/-- The spin waits from the step on at which it reaches 96, and not before. -/
theorem spin_waiting_iff (k : Nat) : (spinStep^[k] p).phase = .waiting ↔ n + 1 + 95 ≤ k := by
  constructor
  · intro hw
    by_contra hlt
    rcases Nat.le_total k (n + 1) with hk | hk
    · rw [(spin_falls h hk).2.1] at hw
      split at hw <;> cases hw
    · obtain ⟨j, rfl⟩ := Nat.exists_eq_add_of_le hk
      rw [(spin_rises_after h (k := j) (by omega)).2.1, if_neg (by omega)] at hw
      cases hw
  · intro hk
    obtain ⟨j, rfl⟩ := Nat.exists_eq_add_of_le' hk
    have htop := spin_rises_after h (k := 95) le_rfl
    rw [if_pos rfl] at htop
    rw [Function.iterate_add_apply, spin_waits htop]
    exact htop.2.1

/-- From the first step on the hue is in its domain (R172). -/
theorem spin_hue (k : Nat) : (spinStep^[k + 1] p).hue.toNat < 192 := by
  induction k with
  | zero => exact spinStep_hue_of_turning (.inl h.2.1)
  | succ k ih => rw [Function.iterate_succ_apply']; exact spinStep_hue ih

end

/-- A step of a spin that does not turn is a step of the spin alone. -/
theorem spinTurn_still {s : State} (h : s.anim.spin.turning = false) : spinTurn s = onSpin spinStep s := by
  simp only [spinTurn, h, Bool.false_eq_true, if_false]

/-! ## Issued commands -/

/-- A fetched command of the encoder is executed (R26, R83). -/
theorem step_fetched {s : State} {i : Instr} (hf : s.fault = none) (hd : s.hostDue = none)
    (hw : s.prog[s.cp]? = some (encode i)) : step s = exec i s :=
  step_command hf hd hw (decode_encode i)

/-- What the host had to do waits for all the commands it issues, not for the first alone (log 25). -/
theorem issue_waits {l : List Instr} {s : State} {e : Nat × HostOp}
    (he : e ∈ s.sched.map fun e => (max e.1 s.cp + l.length, e.2)) : s.cp + l.length ≤ e.1 := by
  obtain ⟨f, -, rfl⟩ := List.mem_map.1 he
  exact Nat.add_le_add_right (le_max_right _ _) _

/-- The first issued command is the next step. -/
theorem step_issue {i : Instr} {l : List Instr} {a : List (Nat × HostOp)} {s : State} (hf : s.fault = none)
    (hc : s.cp ≤ s.prog.length) (ha : ∀ e ∈ a, s.cp < e.1) :
    step (issue (i :: l) a s) = exec i (issue (i :: l) a s) :=
  step_fetched hf (State.hostDue_later (issue_later (List.cons_ne_nil i l) ha)) (issue_at hc (k := 0) rfl)

/-- What a turning step of the spin issues: its `FRAMER`, which completes, and then the `LATCH` (R186, R203). -/
theorem spinTurn_runs {s : State} (hf : s.fault = none) (hi : s.ihold = false) (hc : s.cp ≤ s.prog.length)
    (h : s.anim.spin.phase = .faster ∨ s.anim.spin.phase = .slower) :
    (spinTurn s).anim = { s.anim with spin := spinStep s.anim.spin } ∧
      ∃ u, step (spinTurn s) = exec (.framer (spinStep s.anim.spin).pixel (spinStep s.anim.spin).hue) (spinTurn s) ∧
        step (spinTurn s) = .next u ∧ u.fault = none ∧ step u = exec .latch u := by
  rw [spinTurn_turning (turning_iff.2 h)]
  generalize ht : issue [.framer (spinStep s.anim.spin).pixel (spinStep s.anim.spin).hue, .latch] []
    (onSpin spinStep s) = t
  have hft : t.fault = none := by rw [← ht]; exact hf
  have hit : t.ihold = false := by rw [← ht]; exact hi
  have hstep : step t = exec (.framer (spinStep s.anim.spin).pixel (spinStep s.anim.spin).hue) t := by
    rw [← ht]; exact step_issue hf hc nofun
  have hsends := exec_framer_sends hft hit (spinStep s.anim.spin).pixel (spinStep_hue_of_turning h)
  refine ⟨by rw [← ht]; rfl, _, hstep, hstep.trans hsends, hft, ?_⟩
  -- the command after the frame is the `LATCH`, and the host waits for both
  refine step_fetched hft (State.hostDue_later fun e he => ?_) ?_
  · rw [← ht] at he ⊢
    exact issue_waits (l := [.framer _ _, .latch]) (s := onSpin spinStep s) he
  · rw [← ht]
    exact issue_at (a := []) (s := onSpin spinStep s) hc (k := 1) rfl

/-! ## The frame of a tick -/

/-- What a frame command that completes without a fault leaves for the next step: `CP` one further, no hold, and the
host's state, program and schedule as they were (R157). -/
theorem exec_framea_completed {t u : State} (h : exec .framea t = .next u) (hu : u.fault = none) :
    u.cp = t.cp + 1 ∧ u.ihold = false ∧ u.prog = t.prog ∧ u.sched = t.sched ∧ u.anim = t.anim := by
  obtain ⟨-, ⟨v, hv, hk, -, rfl⟩ | ⟨-, -, code, value, hft⟩⟩ := exec_kept h
  · exact ⟨congrArg (· + 1) hk.cp, (frame_ok transmits_ambientPixel hv).1, hk.prog, hk.sched, hk.anim⟩
  · cases hu.symm.trans hft

/-- What a tick's frame is followed by: the count, due between the frame and the gap, and then the `LATCH` (R188, R203). -/
theorem animTick_runs {s u : State} (hc : s.cp ≤ s.prog.length)
    (h : exec .framea (animTick s) = .next u) (hu : u.fault = none) :
    ∃ v, step u = .next v ∧ v.anim = (tickEffect s).anim ∧ v.trace = u.trace ∧ step v = exec .latch v := by
  obtain ⟨hcp, hi, hprog, hsched, hanim⟩ := exec_framea_completed h hu
  rw [(hostKeeps_animTick s).cp] at hcp
  rw [animTick_sched] at hsched
  refine ⟨_, step_host hu hi hsched hcp.ge, ?_, rfl, ?_⟩
  · exact congrArg animCount hanim
  · refine step_fetched hu (State.hostDue_later fun e he => ?_) ?_
    · have hlater : s.cp + 2 ≤ e.1 := issue_waits (l := [.framea, .latch]) he
      have hlt : u.cp < e.1 := by omega
      exact hlt
    · change u.prog[u.cp]? = _
      rw [hprog, hcp]
      exact (animTick_at hc).2

/-- The first command a tick issues is its `FRAMEA`. -/
theorem step_animTick {s : State} (hf : s.fault = none) (hc : s.cp ≤ s.prog.length) :
    step (animTick s) = exec .framea (animTick s) := by
  obtain ⟨hk, hp, -⟩ := hostKeeps_animAct s
  refine step_issue (hk.fault.trans hf) (by rw [hp, hk.cp]; exact hc) fun e he => ?_
  rw [List.mem_singleton.1 he, hk.cp]
  exact Nat.lt_succ_self _

/-- `FRAMEA` of a legal buffer outside a hold faults nowhere (R155). -/
theorem exec_framea_completes {s : State} (hf : s.fault = none) (hi : s.ihold = false)
    (hl : BufferLegal s.buf) : ∃ u, exec .framea s = .next u ∧ u.fault = none :=
  ⟨_, exec_framea_sends hf hi hl, hf⟩

/-- Outside state 5 the buffer a tick renders is legal, so its `FRAMEA` completes (R172). -/
theorem animTick_completes {s : State} (hf : s.fault = none) (hi : s.ihold = false) (h5 : s.anim.state ≠ 5) :
    ∃ u, exec .framea (animTick s) = .next u ∧ u.fault = none := by
  have hk := hostKeeps_animTick s
  have hl : BufferLegal (animTick s).buf := by
    rw [animTick_buf, bufferLegal_iff]
    exact (rendered_legal h5 _ _ _).1
  exact exec_framea_completes (hk.fault.trans hf) (hk.ihold.trans hi) hl

/-! ## What a tick renders -/

/-- The parameter `hue2` is wrapped in every state (log 13), and every brightness clamped (R172). -/
theorem rendered_domain (state : BitVec 3) (buf : PixelBuffer) (q : AnimParams) (rng : BitVec 16) :
    (∀ p, (bufBri (rendered state buf q rng).1 p).toNat ≤ 6) ∧
      (rendered state buf q rng).2.hue2.toNat < 192 := by
  by_cases h5 : state = 5
  · subst h5
    obtain ⟨c, -, hbri, hbuf, -, hhue2⟩ := rendered_rainbow buf q rng
    exact ⟨fun p => by rw [hbuf, rainbowFill_bri]; exact hbri p, hhue2⟩
  · obtain ⟨hbuf, -, hhue2⟩ := rendered_legal h5 buf q rng
    exact ⟨fun p => (hbuf p).2, hhue2⟩

/-- What state 5 stores of a value of `hue1`, as a remainder (R199, U19). -/
theorem rainbowStored_toNat (h : Byte) :
    (rainbowStored h).toNat = h.toNat % if Config.rainbowReduces then 192 else 256 := by
  unfold rainbowStored
  split
  · exact wrapHue_toNat h
  · exact (Nat.mod_eq_of_lt h.isLt).symm

/-- The steps `hue1` has made when it is stored for the visit `k` (R199). -/
theorem visitSteps (k : Nat) :
    k + Config.rainbowStepsFirst.toNat = if Config.rainbowStepsFirst then k + 1 else k := by
  cases Config.rainbowStepsFirst <;> rfl

/-- The rainbow fill of state 5: the course of `hue1`, and the hue of each position (R199). -/
theorem rendered_fill (buf : PixelBuffer) (q : AnimParams) (rng : BitVec 16) :
    (rendered 5 buf q rng).2.hue1
        = q.hue1 + BitVec.ofNat 8 (Config.rainbowPixels buf q).length * Config.rainbowStep ∧
      ∀ p, (p ∉ Config.rainbowPixels buf q → bufHue (rendered 5 buf q rng).1 p = bufHue buf p) ∧
        ∀ k, (Config.rainbowPixels buf q)[k]? = some p →
          (∀ j, k < j → (Config.rainbowPixels buf q)[j]? ≠ some p) →
          (bufHue (rendered 5 buf q rng).1 p).toNat
            = (q.hue1 + BitVec.ofNat 8 (if Config.rainbowStepsFirst then k + 1 else k)
                * Config.rainbowStep).toNat % (if Config.rainbowReduces then 192 else 256) := by
  obtain ⟨c, hkeeps, -, hbuf, hhue1, -⟩ := rendered_rainbow buf q rng
  rw [hbuf, hhue1]
  refine ⟨rainbowFill_hue1 _ _, fun p => ⟨fun hp => ?_, fun k hk hlast => ?_⟩⟩
  · exact (rainbowFill_other hp _).trans (hkeeps p)
  · rw [rainbowFill_last hk hlast, rainbowStored_toNat, visitSteps]

end Sys2Proof.Machine

namespace Sys2Proof.Proofs

open Sys2Proof Sys2Proof.Machine

/-- Settles O58: the press starts the spin at `n + 2` of the falling speeds; the course is `spin_falls`,
`spin_rises_after` and `spin_waiting_iff`, the issued commands are `spinTurn_runs`. -/
theorem spinSpeedsUpThenStops : Obligations.SpinSpeedsUpThenStops := by
  refine ⟨fun s counter h => ?_, fun s counter h => ?_, fun s => rfl, fun s h => ?_, fun s h => ?_,
    fun s n rest hf hi hc hsched hn h => ?_⟩
  · intro p
    have hpress : p.speed = 14 + counter % 16 + 2 := by change 16 + counter % 16 = _; omega
    have hstart : p.At (14 + counter % 16 + 2) .faster := ⟨hpress, rfl, rfl⟩
    have hspeed : p.speed - 1 = 14 + counter % 16 + 1 := by rw [hpress]; rfl
    refine ⟨?_, fun k hk => ?_, fun k hk => ?_, fun k => ?_, spin_hue hstart⟩
    · exact hostDo_press (spinPress_armed h counter)
    · rw [hpress] at hk ⊢
      exact (spin_falls hstart (by omega)).1
    · rw [hspeed]
      exact (spin_rises_after hstart hk).1
    · rw [hspeed]
      exact spin_waiting_iff hstart k
  · exact hostDo_press (spinPress_not_armed h counter)
  · have hturn : s.anim.spin.turning = false := by simp [Spin.turning, h]
    rw [hostDo, spinTurn_still hturn, onSpin, spinStep_armed h]
    rfl
  · have hturn : s.anim.spin.turning = false := by simp [Spin.turning, h]
    rw [hostDo, spinTurn_still hturn, onSpin, spinStep_waiting h]
    split <;> rfl
  · obtain ⟨hanim, u, hexec, hnext, hfault, hlatch⟩ := spinTurn_runs (s := s.setSched rest) hf hi hc h
    refine ⟨_, u, step_host hf hi hsched hn, hanim, ?_, hnext, hfault, hlatch⟩
    rw [hanim]
    exact hexec

/-- Settles O60: the whole tick is `animTick_eq`, what it renders is in the domains of `rendered_domain`, and the frame,
the count and the gap follow. -/
theorem tickRendersOneFrame : Obligations.TickRendersOneFrame := by
  refine ⟨fun s => ?_, fun s n rest hf hi hc hsched hn => ?_⟩
  · obtain ⟨hbri, hhue2⟩ := rendered_domain s.anim.state s.buf s.anim.params s.rng
    refine ⟨_, _, congrArg Host.Outcome.next (animTick_eq s), (lfsrAdvance_iterate_eq_zero _).not.2, hbri, hhue2,
      fun h5 => ?_, fun h5 => ?_⟩
    · obtain ⟨hbuf, hhue1, -⟩ := rendered_legal h5 s.buf s.anim.params s.rng
      exact ⟨fun p => (hbuf p).1, hhue1⟩
    · rw [h5]
      exact rendered_fill s.buf s.anim.params s.rng
  · have hk := hostKeeps_animTick (s.setSched rest)
    refine ⟨_, step_host hf hi hsched hn, hk.trace, hk.cp, step_animTick (s := s.setSched rest) hf hc,
      animTick_completes (s := s.setSched rest) hf hi, fun u hu hfu => ?_⟩
    exact animTick_runs (s := s.setSched rest) hc hu hfu

end Sys2Proof.Proofs
end

section
/-! PROOFS. The assembler (R86, R87; log 18): trimming and cutting a line of text, reading its numbers back, and the
mnemonics with their operands. -/

namespace Sys2Proof.Machine

/-! ## Trimming -/

theorem trimBlanks_eq (t : Line) : trimBlanks t = (t.dropWhile isBlank).rdropWhile isBlank := rfl

/-- Trimming the end does not look past the last character that stays. -/
theorem rdropWhile_append_of_self {a : Line} (ha : a.rdropWhile isBlank = a) (b : Line) :
    (a ++ b).rdropWhile isBlank = a ++ b.rdropWhile isBlank := by
  unfold List.rdropWhile at ha ⊢
  rw [List.reverse_append, List.dropWhile_append]
  split
  · rename_i h
    rw [ha, List.isEmpty_iff.1 h, List.reverse_nil, List.append_nil]
  · rw [List.reverse_append, List.reverse_reverse]

theorem rdropWhile_cons (c : Char) (t : Line) :
    (c :: t).rdropWhile isBlank =
      if isBlank c = true ∧ t.rdropWhile isBlank = [] then [] else c :: t.rdropWhile isBlank := by
  cases hc : isBlank c with
  | false =>
    rw [if_neg (by simp)]
    exact rdropWhile_append_of_self (a := [c]) (by simp [List.rdropWhile_singleton, hc]) t
  | true =>
    simp only [true_and]
    split
    · rename_i h
      rw [List.rdropWhile_eq_nil_iff] at h ⊢
      simpa [hc] using h
    · rename_i h
      unfold List.rdropWhile at h ⊢
      rw [List.reverse_cons, List.dropWhile_append, if_neg (by simpa using h), List.reverse_append]
      rfl

/-- The two ends of a line are trimmed independently. -/
theorem dropWhile_rdropWhile (t : Line) :
    (t.rdropWhile isBlank).dropWhile isBlank = (t.dropWhile isBlank).rdropWhile isBlank := by
  induction t with
  | nil => rfl
  | cons c t ih =>
    rw [rdropWhile_cons]
    cases hc : isBlank c with
    | false => simp [hc, rdropWhile_cons]
    | true =>
      rw [List.dropWhile_cons_of_pos hc, ← ih]
      split
      · rename_i h
        rw [h.2]
      · rw [List.dropWhile_cons_of_pos hc]

/-- Trimming both ends sees nothing of an end trimmed before. -/
theorem trimBlanks_rdropWhile (t : Line) : trimBlanks (t.rdropWhile isBlank) = trimBlanks t := by
  rw [trimBlanks_eq, trimBlanks_eq, dropWhile_rdropWhile, List.rdropWhile_idempotent]

/-- Blanks before a text are trimmed with it. -/
theorem trimBlanks_append_left {b : Line} (hb : ∀ c ∈ b, isBlank c = true) (t : Line) :
    trimBlanks (b ++ t) = trimBlanks t := by
  rw [trimBlanks_eq, trimBlanks_eq, List.dropWhile_append_of_pos hb]

/-- Characters of a mnemonic or a number: no blank, no comma, no comment. -/
structure Word (t : Line) : Prop where
  ne_nil : t ≠ []
  not_blank : ∀ c ∈ t, isBlank c = false
  not_comma : ',' ∉ t
  not_semicolon : ';' ∉ t

theorem Word.rdropWhile {t : Line} (h : Word t) : t.rdropWhile isBlank = t :=
  List.rdropWhile_eq_self_iff.2 fun hne => by
    rw [h.not_blank _ (List.getLast_mem hne)]; exact Bool.false_ne_true

theorem Word.dropWhile_append {t : Line} (h : Word t) (r : Line) : (t ++ r).dropWhile isBlank = t ++ r := by
  obtain ⟨c, t, rfl⟩ := List.exists_cons_of_ne_nil h.ne_nil
  exact List.dropWhile_cons_of_neg (by simp [h.not_blank c])

/-- A word is what trimming leaves of it and the text after it, but for that text's last blanks. -/
theorem Word.trimBlanks_append {l t : Line} (hl : ∀ c ∈ l, isBlank c = true) (h : Word t) (r : Line) :
    trimBlanks (l ++ (t ++ r)) = t ++ r.rdropWhile isBlank := by
  rw [trimBlanks_append_left hl, trimBlanks_eq, h.dropWhile_append, rdropWhile_append_of_self h.rdropWhile]

/-- A word with blanks on both sides is trimmed to the word. -/
theorem Word.trimBlanks {l t r : Line} (hl : ∀ c ∈ l, isBlank c = true) (h : Word t)
    (hr : ∀ c ∈ r, isBlank c = true) : trimBlanks (l ++ t ++ r) = t := by
  rw [List.append_assoc, h.trimBlanks_append hl, List.rdropWhile_eq_nil_iff.2 hr, List.append_nil]

/-! ## Cutting at the commas -/

theorem splitCommas_comma (t : Line) : splitCommas (',' :: t) = [] :: splitCommas t := rfl

theorem splitCommas_ne_nil (t : Line) : splitCommas t ≠ [] := by
  cases t with
  | nil => exact List.cons_ne_nil _ _
  | cons c t =>
    rw [splitCommas]
    split
    · exact List.cons_ne_nil _ _
    · split <;> exact List.cons_ne_nil _ _

/-- A character that is no comma belongs to the first field. -/
theorem splitCommas_cons {c : Char} (hc : c ≠ ',') (t : Line) :
    ∃ f fs, splitCommas t = f :: fs ∧ splitCommas (c :: t) = (c :: f) :: fs := by
  obtain ⟨f, fs, h⟩ := List.exists_cons_of_ne_nil (splitCommas_ne_nil t)
  exact ⟨f, fs, h, by rw [splitCommas, if_neg (by simpa using hc), h]⟩

/-- A field before a comma, or alone, is cut off whole. -/
theorem splitCommas_field {f : Line} (hf : ',' ∉ f) :
    splitCommas f = [f] ∧ ∀ t, splitCommas (f ++ ',' :: t) = f :: splitCommas t := by
  induction f with
  | nil => exact ⟨rfl, splitCommas_comma⟩
  | cons c f ih =>
    rw [List.mem_cons, not_or] at hf
    obtain ⟨h1, h2⟩ := ih hf.2
    constructor
    · obtain ⟨g, gs, hg, hc⟩ := splitCommas_cons (Ne.symm hf.1) f
      cases h1.symm.trans hg
      exact hc
    · intro t
      obtain ⟨g, gs, hg, hc⟩ := splitCommas_cons (Ne.symm hf.1) (f ++ ',' :: t)
      cases (h2 t).symm.trans hg
      exact hc

/-- The fields between the commas are those the commas were put between (R86). -/
theorem splitCommas_intercalate {fields : List Line} (hne : fields ≠ []) (h : ∀ f ∈ fields, ',' ∉ f) :
    splitCommas (List.intercalate [','] fields) = fields := by
  induction fields with
  | nil => exact absurd rfl hne
  | cons f fs ih =>
    obtain ⟨h1, h2⟩ := splitCommas_field (h f List.mem_cons_self)
    cases fs with
    | nil => rw [List.intercalate_singleton, h1]
    | cons g gs =>
      rw [List.intercalate_cons_cons, List.append_assoc]
      refine (h2 _).trans (congrArg (f :: ·) (ih (List.cons_ne_nil _ _) fun x hx => ?_))
      exact h x (List.mem_cons_of_mem f hx)

/-- Blanks trimmed from the line's front are blanks of its first field's front. -/
theorem splitCommas_dropWhile (t : Line) :
    (splitCommas (t.dropWhile isBlank)).map trimBlanks = (splitCommas t).map trimBlanks := by
  induction t with
  | nil => rfl
  | cons c t ih =>
    cases hc : isBlank c with
    | false => rw [List.dropWhile_cons_of_neg (by simp [hc])]
    | true =>
      have hcomma : c ≠ ',' := by rintro rfl; exact absurd hc (by decide)
      obtain ⟨f, fs, hf, hcf⟩ := splitCommas_cons hcomma t
      have hblank : ∀ d ∈ [c], isBlank d = true := by simpa using hc
      rw [List.dropWhile_cons_of_pos hc, ih, hf, hcf, List.map_cons, List.map_cons]
      exact congrArg (· :: _) (trimBlanks_append_left hblank f).symm

/-- Blanks trimmed from the line's end are blanks of its last field's end. -/
theorem splitCommas_rdropWhile (t : Line) :
    (splitCommas (t.rdropWhile isBlank)).map (List.rdropWhile isBlank)
      = (splitCommas t).map (List.rdropWhile isBlank) := by
  induction t with
  | nil => rfl
  | cons c t ih =>
    by_cases hc : c = ','
    · subst hc
      rw [rdropWhile_cons, if_neg fun h => absurd h.1 (by decide), splitCommas_comma, splitCommas_comma, List.map_cons,
        List.map_cons, ih]
    · obtain ⟨f, fs, hf, hcf⟩ := splitCommas_cons hc t
      obtain ⟨g, gs, hg, hcg⟩ := splitCommas_cons hc (t.rdropWhile isBlank)
      have ihf := ih
      rw [hf, hg, List.map_cons, List.map_cons, List.cons.injEq] at ihf
      rw [rdropWhile_cons, hcf]
      split
      · rename_i h
        -- the rest of the line is blank, and so is its only field
        rw [h.2, hf] at ih
        obtain ⟨hnil, htail⟩ := List.cons.inj ih
        rw [List.map_cons, rdropWhile_cons, if_pos ⟨h.1, hnil.symm⟩, ← htail]
        rfl
      · rw [hcg, List.map_cons, List.map_cons, rdropWhile_cons, rdropWhile_cons, ihf.1, ihf.2]

/-- Trimmed one by one, the fields of a line are those of the trimmed line. -/
theorem splitCommas_trimBlanks (t : Line) :
    (splitCommas (trimBlanks t)).map trimBlanks = (splitCommas t).map trimBlanks := by
  have hmap : ∀ l : List Line, l.map trimBlanks = (l.map (List.rdropWhile isBlank)).map trimBlanks :=
    fun l => by rw [List.map_map]; exact List.map_congr_left fun f _ => (trimBlanks_rdropWhile f).symm
  rw [trimBlanks_eq, hmap, splitCommas_rdropWhile, ← hmap, splitCommas_dropWhile]

/-! ## Numbers -/

/-- The digits up to 15, capital letters apart: each is read back, and none is a blank, a separator or the `x` of R86. -/
theorem digitChar_facts : ∀ d < 16, digitValue (Nat.digitChar d) = some d ∧
    isBlank (Nat.digitChar d) = false ∧
    Nat.digitChar d ≠ ',' ∧ Nat.digitChar d ≠ ';' ∧ Nat.digitChar d ≠ 'x' := by decide

theorem readDigits_append (base acc : Nat) (l m : Line) :
    readDigits base acc (l ++ m) = (readDigits base acc l).bind fun n => readDigits base n m := by
  induction l generalizing acc with
  | nil => rfl
  | cons c l ih =>
    rw [List.cons_append, readDigits, readDigits]
    cases digitValue c with
    | none => rfl
    | some d =>
      simp only
      split
      · exact ih _
      · rfl

theorem readDigits_digit {base d : Nat} (hb : base ≤ 16) (hd : d < base) (acc : Nat) :
    readDigits base acc [Nat.digitChar d] = some (acc * base + d) := by
  simp only [readDigits, (digitChar_facts d (hd.trans_le hb)).1, if_pos hd]

section

variable {base : Nat} (h1 : 1 < base) (h16 : base ≤ 16)
include h1 h16

/-- The digits of a number are read back as the number, in both bases of R86. -/
theorem readDigits_toDigits (n : Nat) : readDigits base 0 (Nat.toDigits base n) = some n := by
  induction n using Nat.strongRecOn with
  | ind n ih =>
    rw [Nat.toDigits_eq_if h1]
    split
    · rename_i hn
      rw [readDigits_digit h16 hn, Nat.zero_mul, Nat.zero_add]
    · rename_i hn
      have hdiv : n / base < n := Nat.div_lt_self (by omega) h1
      rw [readDigits_append, ih _ hdiv, Option.bind_some,
        readDigits_digit h16 (Nat.mod_lt n (by omega)), Nat.div_add_mod']

omit h16 in
theorem mem_toDigits {n : Nat} {c : Char} (hc : c ∈ Nat.toDigits base n) : ∃ d < base, c = Nat.digitChar d := by
  induction n using Nat.strongRecOn with
  | ind n ih =>
    rw [Nat.toDigits_eq_if h1] at hc
    split at hc
    · exact ⟨n, ‹_›, List.mem_singleton.1 hc⟩
    · rcases List.mem_append.1 hc with hc | hc
      · exact ih _ (Nat.div_lt_self (by omega) h1) hc
      · exact ⟨n % base, Nat.mod_lt n (by omega), List.mem_singleton.1 hc⟩

theorem toDigits_word (n : Nat) : Word (Nat.toDigits base n) ∧ 'x' ∉ Nat.toDigits base n := by
  have hfacts : ∀ c ∈ Nat.toDigits base n, isBlank c = false ∧ c ≠ ',' ∧ c ≠ ';' ∧ c ≠ 'x' := by
    intro c hc
    obtain ⟨d, hd, rfl⟩ := mem_toDigits h1 hc
    exact (digitChar_facts d (hd.trans_le h16)).2
  exact ⟨⟨Nat.toDigits_ne_nil, fun c hc => (hfacts c hc).1, fun hc => (hfacts _ hc).2.1 rfl,
    fun hc => (hfacts _ hc).2.2.1 rfl⟩, fun hc => (hfacts _ hc).2.2.2 rfl⟩

end

/-- A number as R86 writes it: decimal, or hexadecimal after `0x`. -/
def IsNumeral (n : Nat) (t : Line) : Prop := t = Nat.toDigits 10 n ∨ t = '0' :: 'x' :: Nat.toDigits 16 n

theorem IsNumeral.word {n : Nat} {t : Line} (h : IsNumeral n t) : Word t := by
  rcases h with rfl | rfl
  · exact (toDigits_word (by decide) (by decide) n).1
  · have hw := (toDigits_word (base := 16) (by decide) (by decide) n).1
    refine ⟨List.cons_ne_nil _ _, fun c hc => ?_, ?_, ?_⟩
    · simp only [List.mem_cons] at hc
      rcases hc with rfl | rfl | hc
      · decide
      · decide
      · exact hw.not_blank c hc
    · simpa using hw.not_comma
    · simpa using hw.not_semicolon

/-- A number is read as what it is the number of (R86). -/
theorem IsNumeral.read {n : Nat} {t : Line} (h : IsNumeral n t) : readNumber t = some n := by
  rcases h with rfl | rfl
  · obtain ⟨hw, hx⟩ := toDigits_word (base := 10) (by decide) (by decide) n
    unfold readNumber
    split
    · exact absurd ‹_› hw.ne_nil
    · rename_i ht
      rw [ht] at hx
      exact absurd (List.mem_cons_of_mem _ List.mem_cons_self) hx
    · exact readDigits_toDigits (by decide) (by decide) n
  · exact (if_neg Nat.toDigits_ne_nil).trans (readDigits_toDigits (by decide) (by decide) n)

/-! ## The operands of a line -/

/-- A number with blanks around it (log 18). -/
def IsField (n : Nat) (f : Line) : Prop :=
  ∃ l t r : Line, f = l ++ t ++ r ∧ (l ++ r).all isBlank = true ∧ IsNumeral n t

theorem not_separator_of_blank {c : Char} (h : isBlank c = true) : c ≠ ',' ∧ c ≠ ';' := by
  constructor <;> rintro rfl <;> exact absurd h (by decide)

theorem IsField.read {n : Nat} {f : Line} (h : IsField n f) : readNumber (trimBlanks f) = some n := by
  obtain ⟨l, t, r, rfl, hb, ht⟩ := h
  rw [List.all_eq_true] at hb
  rw [ht.word.trimBlanks (fun c hc => hb c (List.mem_append_left r hc))
    (fun c hc => hb c (List.mem_append_right l hc)), ht.read]

theorem IsField.plain {n : Nat} {f : Line} (h : IsField n f) : ',' ∉ f ∧ ';' ∉ f := by
  obtain ⟨l, t, r, rfl, hb, ht⟩ := h
  rw [List.all_eq_true] at hb
  have hw := ht.word
  have hl : ∀ c ∈ l, c ≠ ',' ∧ c ≠ ';' := fun c hc => not_separator_of_blank (hb c (List.mem_append_left r hc))
  have hr : ∀ c ∈ r, c ≠ ',' ∧ c ≠ ';' := fun c hc => not_separator_of_blank (hb c (List.mem_append_right l hc))
  simp only [List.mem_append, not_or]
  exact ⟨⟨⟨fun hc => (hl _ hc).1 rfl, hw.not_comma⟩, fun hc => (hr _ hc).1 rfl⟩,
    ⟨fun hc => (hl _ hc).2 rfl, hw.not_semicolon⟩, fun hc => (hr _ hc).2 rfl⟩

section

variable {ops : List Nat} {fields : List Line} (h : List.Forall₂ IsField ops fields)
include h

theorem fields_plain {f : Line} (hf : f ∈ fields) : ',' ∉ f ∧ ';' ∉ f := by
  induction h with
  | nil => cases hf
  | cons hn _ ih =>
    rcases List.mem_cons.1 hf with rfl | hf
    · exact hn.plain
    · exact ih hf

theorem fields_read : (fields.map trimBlanks).mapM readNumber = some ops := by
  induction h with
  | nil => rfl
  | cons hn _ ih => rw [List.map_cons, List.mapM_cons, hn.read, ih]; rfl

/-- The operands between the commas, the text around them trimmed (R86). -/
theorem readOperands_fields (hne : fields ≠ []) :
    readOperands (trimBlanks (List.intercalate [','] fields)) = some ops := by
  have hread : ((splitCommas (trimBlanks (List.intercalate [','] fields))).map trimBlanks).mapM readNumber
      = some ops := by
    rw [splitCommas_trimBlanks, splitCommas_intercalate hne fun f hf => (fields_plain h hf).1]
    exact fields_read h
  unfold readOperands
  split
  · -- a text of blanks alone would hold no number
    rename_i hnil
    rw [hnil] at hread
    cases hread
  · rw [← hread, List.mapM_map]
    rfl

end

/-! ## A whole line -/

/-- A character of the fields joined by commas is a comma or a character of a field. -/
theorem mem_intercalate_comma {c : Char} {fields : List Line} (h : c ∈ List.intercalate [','] fields) :
    c = ',' ∨ ∃ f ∈ fields, c ∈ f := by
  induction fields with
  | nil => cases h
  | cons f fs ih =>
    cases fs with
    | nil => exact .inr ⟨f, List.mem_cons_self, by simpa using h⟩
    | cons g gs =>
      rw [List.intercalate_cons_cons, List.append_assoc, List.mem_append, List.mem_append,
        List.mem_singleton] at h
      rcases h with h | h | h
      · exact .inr ⟨f, List.mem_cons_self, h⟩
      · exact .inl h
      · refine (ih h).imp_right fun ⟨x, hx, hcx⟩ => ⟨x, List.mem_cons_of_mem f hx, hcx⟩

/-- A line's text ends at its comment (R86). -/
theorem stripComment_append {t tail : Line} (ht : ';' ∉ t)
    (htail : tail = [] ∨ ∃ comment, tail = ';' :: comment) : stripComment (t ++ tail) = t := by
  have hpos : ∀ c ∈ t, (c != ';') = true := fun c hc => bne_iff_ne.2 fun h => ht (h ▸ hc)
  have hnil : tail.takeWhile (· != ';') = [] := by
    rcases htail with rfl | ⟨comment, rfl⟩ <;> rfl
  rw [stripComment, List.takeWhile_append_of_pos hpos, hnil, List.append_nil]

theorem keywordText_word (k : Keyword) : Word (keywordText k) := by
  have hall : (keywordText k).all (fun c => !isBlank c && c != ',' && c != ';') = true := by cases k <;> rfl
  simp only [List.all_eq_true, Bool.and_eq_true, bne_iff_ne, Bool.not_eq_true'] at hall
  exact ⟨by cases k <;> exact List.cons_ne_nil _ _, fun c hc => (hall c hc).1.1,
    fun hc => (hall _ hc).1.2 rfl, fun hc => (hall _ hc).2 rfl⟩

/-- Every mnemonic is read back (R86). -/
theorem readKeyword_keywordText (k : Keyword) : readKeyword (keywordText k) = some k := by
  cases k <;> rfl

/-- A rest that is empty or begins with a blank is so still when its end is trimmed. -/
theorem takeWhile_rdropWhile {t : Line} (h : t.takeWhile (fun c => !isBlank c) = []) :
    (t.rdropWhile isBlank).takeWhile (fun c => !isBlank c) = [] := by
  cases t with
  | nil => rfl
  | cons c t =>
    rw [rdropWhile_cons]
    split
    · rfl
    · cases hc : isBlank c with
      | true => exact List.takeWhile_cons_of_neg (by simp [hc])
      | false => rw [List.takeWhile_cons_of_pos (by simp [hc])] at h; cases h

/-- A line whose text is, after blanks, a mnemonic and a rest that is empty or begins with a blank (R86). -/
theorem assembleLine_keyword (v : Variant) (k : Keyword) {lead rest tail : Line} {ops : List Nat}
    (hlead : ∀ c ∈ lead, isBlank c = true) (hrest : rest.takeWhile (fun c => !isBlank c) = [])
    (hsemi : ';' ∉ lead ++ (keywordText k ++ rest))
    (htail : tail = [] ∨ ∃ comment, tail = ';' :: comment)
    (hops : readOperands (trimBlanks rest) = some ops) :
    assembleLine v (lead ++ (keywordText k ++ rest) ++ tail) = assembleOp v k ops := by
  have hw := keywordText_word k
  have hkey : ∀ c ∈ keywordText k, (!isBlank c) = true := fun c hc => by rw [hw.not_blank c hc]; rfl
  have hend := takeWhile_rdropWhile hrest
  have hdrop := List.takeWhile_append_dropWhile (p := fun c => !isBlank c) (l := rest.rdropWhile isBlank)
  rw [hend, List.nil_append] at hdrop
  rw [assembleLine, stripComment_append hsemi htail, hw.trimBlanks_append hlead]
  rw [if_neg (List.append_ne_nil_of_left_ne_nil hw.ne_nil _), List.takeWhile_append_of_pos hkey, hend,
    List.append_nil, List.dropWhile_append_of_pos hkey, hdrop, trimBlanks_rdropWhile, hops,
    readKeyword_keywordText]

/-- A line of a mnemonic and its operands (R86). -/
theorem assembleLine_operands (v : Variant) (k : Keyword) {ops : List Nat} {fields : List Line}
    {lead gap tail : Line} (hfields : List.Forall₂ IsField ops fields)
    (hblank : (lead ++ gap).all isBlank = true) (hgap : ops = [] ∨ gap ≠ [])
    (htail : tail = [] ∨ ∃ comment, tail = ';' :: comment) :
    assembleLine v (lead ++ keywordText k ++ gap ++ List.intercalate [','] fields ++ tail)
      = assembleOp v k ops := by
  rw [List.all_eq_true] at hblank
  have hlead : ∀ c ∈ lead, isBlank c = true := fun c hc => hblank c (List.mem_append_left gap hc)
  have hgapb : ∀ c ∈ gap, isBlank c = true := fun c hc => hblank c (List.mem_append_right lead hc)
  have hassoc : lead ++ keywordText k ++ gap ++ List.intercalate [','] fields
      = lead ++ (keywordText k ++ (gap ++ List.intercalate [','] fields)) := by
    simp only [List.append_assoc]
  rw [hassoc]
  refine assembleLine_keyword v k hlead ?_ ?_ htail ?_
  · -- the rest begins with a blank of the gap, or there is none of either
    cases gap with
    | nil =>
      cases hfields with
      | nil => rfl
      | cons => exact absurd rfl (hgap.resolve_left (List.cons_ne_nil _ _))
    | cons b gap => exact List.takeWhile_cons_of_neg (by simp [hgapb b])
  · simp only [List.mem_append, not_or]
    refine ⟨fun hc => (not_separator_of_blank (hlead _ hc)).2 rfl, (keywordText_word k).not_semicolon,
      fun hc => (not_separator_of_blank (hgapb _ hc)).2 rfl, fun hc => ?_⟩
    rcases mem_intercalate_comma hc with hc | ⟨f, hf, hc⟩
    · exact absurd hc (by decide)
    · exact (fields_plain hfields hf).2 hc
  · rw [trimBlanks_append_left hgapb]
    cases hfields with
    | nil => rfl
    | cons hn hns => exact readOperands_fields (.cons hn hns) (List.cons_ne_nil _ _)

/-- A line of blanks, with or without a comment, is no command (log 18). -/
theorem assembleLine_blanks (v : Variant) {blanks tail : Line} (hb : blanks.all isBlank = true)
    (htail : tail = [] ∨ ∃ comment, tail = ';' :: comment) :
    assembleLine v (blanks ++ tail) = some [] := by
  rw [List.all_eq_true] at hb
  have hsemi : ';' ∉ blanks := fun hc => (not_separator_of_blank (hb _ hc)).2 rfl
  have htrim : trimBlanks blanks = [] := by
    simpa [trimBlanks_eq] using trimBlanks_append_left hb []
  rw [assembleLine, stripComment_append hsemi htail, htrim]
  rfl

/-! ## Mnemonics with operands -/

/-- An operand that has a field's width fits it (R10, R81). -/
theorem fit_toNat {w : Nat} (x : BitVec w) : fit w x.toNat = some x := by
  rw [fit, if_pos x.isLt, BitVec.ofNat_toNat, BitVec.setWidth_eq]

/-- Each command is assembled from its mnemonic and its operands (R82, R86). -/
theorem assembleOp_operandsOf (v : Variant) (i : Instr) :
    assembleOp v (keywordOf i) (operandsOf i) = some [i] := by
  cases i with
  | sendbit b => cases b <;> rfl
  | sendbyte x => simp [keywordOf, operandsOf, assembleOp, fit_toNat]
  | wrcolor r g b => simp [keywordOf, operandsOf, assembleOp, fit_toNat]
  | wrhue h => simp [keywordOf, operandsOf, assembleOp, fit_toNat]
  | wrhuebr h l => simp [keywordOf, operandsOf, assembleOp, fit_toNat]
  | framer p h => simp [keywordOf, operandsOf, assembleOp, fit_toNat]
  | latch | ihold | irel | framea => rfl

/-- `RENDER` in the reactive build (R87). -/
theorem renderOf_reactive (pos : BitVec 4) (hue : Byte) :
    renderOf .reactive [pos.toNat, hue.toNat] = some (.framer pos hue) := by
  simp [renderOf, fit_toNat]

end Sys2Proof.Machine

namespace Sys2Proof.Proofs

open Sys2Proof Sys2Proof.Machine

/-- Settles O6: the mnemonics one by one, the expansions over `renderOf`, and a line's text as its trimmed words. -/
theorem assemblerReadsEveryCommand : Obligations.AssemblerReadsEveryCommand := by
  refine ⟨⟨by decide, readKeyword_keywordText⟩, assembleOp_operandsOf, fun v => rfl, fun pos hue => ⟨?_, ?_⟩,
    rfl, rfl, fun v k ops fields lead gap tail _ hfields hblank hgap htail => ?_,
    fun v blanks tail hb htail => assembleLine_blanks v hb htail⟩
  · rw [assembleOp, renderOf_reactive]
    rfl
  · rw [assembleOp, renderOf_reactive]
    rfl
  · exact assembleLine_operands v k hfields hblank hgap htail

end Sys2Proof.Proofs
end
